-- ==== Sys2Proof/Word.lean ====
section
/-! DEFINITION. The widths of the chip8 CORE (00_scope.md R5, R6): every value is an unsigned
number of a fixed width. -/

namespace Sys2Proof

/-- A 4-bit half of a byte (R9, R62). -/
abbrev Nibble := BitVec 4

/-- A register, a Memory cell or a timer: 8 bits (R10, R22, R40). -/
abbrev Byte := BitVec 8

/-- `pc`, `I` and a stack cell: 12 bits (R5 `ADDR_W`). -/
abbrev Addr := BitVec 12

/-- An instruction word: 16 bits, the first byte in bits 15 to 8 (R61). -/
abbrev Word := BitVec 16

/-- The number of a general register, 0 to 15 (R10, R64). -/
abbrev RegIx := Fin 16

/-- Register 0xF, which also holds the flag (R12). -/
abbrev flagReg : RegIx := 15

end Sys2Proof
end

