-- ==== Sys2Proof/Syntax.lean ====
section
/-! DEFINITION. The 26 instructions of 30_encoding.md R65 as syntax, one constructor per row of
spec/opcode_table.json, in the table's order. Operands as R64 gives them: register numbers, an 8-bit
`NN`, a 12-bit `NNN`, and the row count `N` of a sprite, a number WellFormed bounds. -/

namespace Sys2Proof

inductive Instr where
  /-- 1 `00E0` `CLS`: clear the display (R160). -/
  | cls
  /-- 2 `00EE` `RET`: return from subroutine (R103). -/
  | ret
  /-- 3 `1NNN` `JP NNN` (R100). -/
  | jp (nnn : Addr)
  /-- 4 `2NNN` `CALL NNN` (R102). -/
  | call (nnn : Addr)
  /-- 5 `3XNN` `SE Vx, NN` (R104). -/
  | seImm (x : RegIx) (nn : Byte)
  /-- 6 `4XNN` `SNE Vx, NN` (R105). -/
  | sneImm (x : RegIx) (nn : Byte)
  /-- 7 `5XY0` `SE Vx, Vy` (R106). -/
  | seReg (x y : RegIx)
  /-- 8 `6XNN` `LD Vx, NN` (R120). -/
  | ldImm (x : RegIx) (nn : Byte)
  /-- 9 `7XNN` `ADD Vx, NN` (R121). -/
  | addImm (x : RegIx) (nn : Byte)
  /-- 10 `8XY0` `LD Vx, Vy` (R122). -/
  | ldReg (x y : RegIx)
  /-- 11 `8XY1` `OR Vx, Vy` (R123). -/
  | orReg (x y : RegIx)
  /-- 12 `8XY2` `AND Vx, Vy` (R124). -/
  | andReg (x y : RegIx)
  /-- 13 `8XY4` `ADD Vx, Vy` (R125). -/
  | addReg (x y : RegIx)
  /-- 14 `8XY5` `SUB Vx, Vy` (R126). -/
  | subReg (x y : RegIx)
  /-- 15 `9XY0` `SNE Vx, Vy` (R107). -/
  | sneReg (x y : RegIx)
  /-- 16 `ANNN` `LD I, NNN` (R140). -/
  | ldI (nnn : Addr)
  /-- 17 `BNNN` `JP V0, NNN` (R101). -/
  | jpV0 (nnn : Addr)
  /-- 18 `CXNN` `RND Vx, NN` (R127). -/
  | rnd (x : RegIx) (nn : Byte)
  /-- 19 `DXYN` `DRW Vx, Vy, N` (R161). -/
  | drw (x y : RegIx) (n : Nat)
  /-- 20 `FX07` `LD Vx, DT` (R180). -/
  | ldFromDt (x : RegIx)
  /-- 21 `FX15` `LD DT, Vx` (R181). -/
  | ldDt (x : RegIx)
  /-- 22 `FX1E` `ADD I, Vx` (R141). -/
  | addI (x : RegIx)
  /-- 23 `FX29` `LD F, Vx` (R142). -/
  | ldF (x : RegIx)
  /-- 24 `FX33` `LD B, Vx` (R143). -/
  | ldB (x : RegIx)
  /-- 25 `FX55` `LD [I], Vx` (R144). -/
  | storeRegs (x : RegIx)
  /-- 26 `FX65` `LD Vx, [I]` (R145). -/
  | loadRegs (x : RegIx)
  deriving DecidableEq, Repr

end Sys2Proof
end

