-- ==== Sys2Proof/WellFormed.lean ====
section
/-! DEFINITION. Which instructions can be written at all (30_encoding.md R64, R71). Register numbers,
`NN` and `NNN` fit their fields by their types; the count `N` is a number that must fit in 4 bits. -/

namespace Sys2Proof

/-- "`NNN`, `NN`, `N` are numerals that must fit in 12, 8 and 4 bits" (R71): the one check the operand
types do not already make is that the row count of `DRW` is 0 to 15 (R64). -/
def Instr.wellFormed : Instr → Bool
  | .drw _ _ n => decide (n < 16)
  | .cls | .ret | .jp _ | .call _ | .seImm _ _ | .sneImm _ _ | .seReg _ _ | .ldImm _ _ | .addImm _ _
  | .ldReg _ _ | .orReg _ _ | .andReg _ _ | .addReg _ _ | .subReg _ _ | .sneReg _ _ | .ldI _ | .jpV0 _
  | .rnd _ _ | .ldFromDt _ | .ldDt _ | .addI _ | .ldF _ | .ldB _ | .storeRegs _ | .loadRegs _ => true

end Sys2Proof
end

