-- ==== Sys2Proof/Decode.lean ====
section
/-! DEFINITION. The decoder and, after it, the encoder (30_encoding.md R60 to R70). A word is four
nibbles, "the sole dispatch key for every opcode" (R62); the patterns below are the rows of R65. -/

namespace Sys2Proof

/-- Why bytes are no instruction. -/
inductive DecodeError where
  /-- Fewer than the two bytes every instruction has (R60). -/
  | truncated
  /-- The word matches no row of R65 (R67): the machine raises UnsupportedOpcode. -/
  | unsupported (w : Word)
  deriving DecidableEq, Repr

/-- The four nibbles of a word, `n0` (bits 15 to 12) first (R62). -/
def nibbles (w : Word) : Nibble × Nibble × Nibble × Nibble :=
  (w.extractLsb' 12 4, w.extractLsb' 8 4, w.extractLsb' 4 4, w.extractLsb' 0 4)

/-- A register field selects one of all 16 registers (R11, R64). -/
def regField (n : Nibble) : RegIx := n.toFin

/-- `NN` = `n2 ++ n3` (R62). -/
def immField (n2 n3 : Nibble) : Byte := n2 ++ n3

/-- `NNN` = `n1 ++ n2 ++ n3` (R62). -/
def addrField (n1 n2 n3 : Nibble) : Addr := n1 ++ n2 ++ n3

/-- The opcode map (R65): literal nibbles matched, the rest operands. Whatever matches no row is
unsupported (R67 to R69). -/
def decodeNibbles : Nibble → Nibble → Nibble → Nibble → Option Instr
  | 0x0, 0x0, 0xE, 0x0 => some .cls
  | 0x0, 0x0, 0xE, 0xE => some .ret
  | 0x1, a, b, c => some (.jp (addrField a b c))
  | 0x2, a, b, c => some (.call (addrField a b c))
  | 0x3, x, a, b => some (.seImm (regField x) (immField a b))
  | 0x4, x, a, b => some (.sneImm (regField x) (immField a b))
  | 0x5, x, y, 0x0 => some (.seReg (regField x) (regField y))
  | 0x6, x, a, b => some (.ldImm (regField x) (immField a b))
  | 0x7, x, a, b => some (.addImm (regField x) (immField a b))
  | 0x8, x, y, 0x0 => some (.ldReg (regField x) (regField y))
  | 0x8, x, y, 0x1 => some (.orReg (regField x) (regField y))
  | 0x8, x, y, 0x2 => some (.andReg (regField x) (regField y))
  | 0x8, x, y, 0x4 => some (.addReg (regField x) (regField y))
  | 0x8, x, y, 0x5 => some (.subReg (regField x) (regField y))
  | 0x9, x, y, 0x0 => some (.sneReg (regField x) (regField y))
  | 0xA, a, b, c => some (.ldI (addrField a b c))
  | 0xB, a, b, c => some (.jpV0 (addrField a b c))
  | 0xC, x, a, b => some (.rnd (regField x) (immField a b))
  | 0xD, x, y, n => some (.drw (regField x) (regField y) n.toNat)
  | 0xF, x, 0x0, 0x7 => some (.ldFromDt (regField x))
  | 0xF, x, 0x1, 0x5 => some (.ldDt (regField x))
  | 0xF, x, 0x1, 0xE => some (.addI (regField x))
  | 0xF, x, 0x2, 0x9 => some (.ldF (regField x))
  | 0xF, x, 0x3, 0x3 => some (.ldB (regField x))
  | 0xF, x, 0x5, 0x5 => some (.storeRegs (regField x))
  | 0xF, x, 0x6, 0x5 => some (.loadRegs (regField x))
  | _, _, _, _ => none

/-- Decode one word: a function of the word alone (R66, R70). -/
def decodeWord (w : Word) : Except DecodeError Instr :=
  match nibbles w with
  | (n0, n1, n2, n3) =>
    match decodeNibbles n0 n1 n2 n3 with
    | some i => .ok i
    | none => .error (.unsupported w)

/-- The word of two bytes: the byte at the lower address is the more significant (R46, R61). -/
def wordOfBytes (b0 b1 : Byte) : Word := b0 ++ b1

/-- Decode the instruction at the head of any bytes; the bytes after it come back. -/
def decode : List Byte → Except DecodeError (Instr × List Byte)
  | b0 :: b1 :: rest =>
    match decodeWord (wordOfBytes b0 b1) with
    | .ok i => .ok (i, rest)
    | .error e => .error e
  | _ => .error .truncated

/-- The two bytes of a word, in the order they stand in Memory (R46). -/
def bytesOfWord (w : Word) : List Byte := [w.extractLsb' 8 8, w.extractLsb' 0 8]

/-- The decoder on a row of spec/opcode_table.json: the row's `nbits` bits of `w` as one word, laid out
as Memory holds it. -/
def decodeTableWord (nbits w : Nat) : Option Instr :=
  match decode (bytesOfWord (BitVec.ofNat 16 (w % 2 ^ nbits))) with
  | .ok (i, _) => some i
  | .error _ => none

/-! The encoder, from the same table R65. -/

/-- The nibble that names a register. -/
def regNibble (x : RegIx) : Nibble := BitVec.ofFin x

/-- Format A (R63): a literal nibble and a 12-bit address. -/
def wordA (op : Nibble) (nnn : Addr) : Word := op ++ nnn

/-- Format I (R63): a literal nibble, a register and an 8-bit immediate. -/
def wordI (op : Nibble) (x : RegIx) (nn : Byte) : Word := op ++ regNibble x ++ nn

/-- Formats R and D (R63): a literal nibble, two registers and a fourth nibble (a literal, or `N`). -/
def wordR (op : Nibble) (x y : RegIx) (n3 : Nibble) : Word := op ++ regNibble x ++ regNibble y ++ n3

/-- Format F (R63): the nibble 0xF, a register and a literal byte. -/
def wordF (x : RegIx) (fn : Byte) : Word := wordI 0xF x fn

/-- The word of an instruction (R65). The count of `DRW` takes its low 4 bits, all of it when the
instruction is well formed. -/
def encodeWord : Instr → Word
  | .cls => 0x00E0
  | .ret => 0x00EE
  | .jp nnn => wordA 0x1 nnn
  | .call nnn => wordA 0x2 nnn
  | .seImm x nn => wordI 0x3 x nn
  | .sneImm x nn => wordI 0x4 x nn
  | .seReg x y => wordR 0x5 x y 0x0
  | .ldImm x nn => wordI 0x6 x nn
  | .addImm x nn => wordI 0x7 x nn
  | .ldReg x y => wordR 0x8 x y 0x0
  | .orReg x y => wordR 0x8 x y 0x1
  | .andReg x y => wordR 0x8 x y 0x2
  | .addReg x y => wordR 0x8 x y 0x4
  | .subReg x y => wordR 0x8 x y 0x5
  | .sneReg x y => wordR 0x9 x y 0x0
  | .ldI nnn => wordA 0xA nnn
  | .jpV0 nnn => wordA 0xB nnn
  | .rnd x nn => wordI 0xC x nn
  | .drw x y n => wordR 0xD x y (BitVec.ofNat 4 n)
  | .ldFromDt x => wordF x 0x07
  | .ldDt x => wordF x 0x15
  | .addI x => wordF x 0x1E
  | .ldF x => wordF x 0x29
  | .ldB x => wordF x 0x33
  | .storeRegs x => wordF x 0x55
  | .loadRegs x => wordF x 0x65

/-- The bytes of an instruction, as Memory holds them (R46). -/
def encode (i : Instr) : List Byte := bytesOfWord (encodeWord i)

/-! The table itself, as mask and match (R65): what the decoder is held against. -/

/-- "an instruction is selected when `insn & mask = match`" (R65). -/
structure OpcodeRow where
  pattern : Word
  mask : Word
  deriving DecidableEq, Repr

/-- The row of R65 an instruction belongs to. -/
def Instr.row : Instr → OpcodeRow
  | .cls => ⟨0x00E0, 0xFFFF⟩
  | .ret => ⟨0x00EE, 0xFFFF⟩
  | .jp _ => ⟨0x1000, 0xF000⟩
  | .call _ => ⟨0x2000, 0xF000⟩
  | .seImm _ _ => ⟨0x3000, 0xF000⟩
  | .sneImm _ _ => ⟨0x4000, 0xF000⟩
  | .seReg _ _ => ⟨0x5000, 0xF00F⟩
  | .ldImm _ _ => ⟨0x6000, 0xF000⟩
  | .addImm _ _ => ⟨0x7000, 0xF000⟩
  | .ldReg _ _ => ⟨0x8000, 0xF00F⟩
  | .orReg _ _ => ⟨0x8001, 0xF00F⟩
  | .andReg _ _ => ⟨0x8002, 0xF00F⟩
  | .addReg _ _ => ⟨0x8004, 0xF00F⟩
  | .subReg _ _ => ⟨0x8005, 0xF00F⟩
  | .sneReg _ _ => ⟨0x9000, 0xF00F⟩
  | .ldI _ => ⟨0xA000, 0xF000⟩
  | .jpV0 _ => ⟨0xB000, 0xF000⟩
  | .rnd _ _ => ⟨0xC000, 0xF000⟩
  | .drw _ _ _ => ⟨0xD000, 0xF000⟩
  | .ldFromDt _ => ⟨0xF007, 0xF0FF⟩
  | .ldDt _ => ⟨0xF015, 0xF0FF⟩
  | .addI _ => ⟨0xF01E, 0xF0FF⟩
  | .ldF _ => ⟨0xF029, 0xF0FF⟩
  | .ldB _ => ⟨0xF033, 0xF0FF⟩
  | .storeRegs _ => ⟨0xF055, 0xF0FF⟩
  | .loadRegs _ => ⟨0xF065, 0xF0FF⟩

/-- The 26 rows of R65, in its order. -/
def opcodeRows : List OpcodeRow :=
  [⟨0x00E0, 0xFFFF⟩, ⟨0x00EE, 0xFFFF⟩, ⟨0x1000, 0xF000⟩, ⟨0x2000, 0xF000⟩, ⟨0x3000, 0xF000⟩,
   ⟨0x4000, 0xF000⟩, ⟨0x5000, 0xF00F⟩, ⟨0x6000, 0xF000⟩, ⟨0x7000, 0xF000⟩, ⟨0x8000, 0xF00F⟩,
   ⟨0x8001, 0xF00F⟩, ⟨0x8002, 0xF00F⟩, ⟨0x8004, 0xF00F⟩, ⟨0x8005, 0xF00F⟩, ⟨0x9000, 0xF00F⟩] ++
  [⟨0xA000, 0xF000⟩, ⟨0xB000, 0xF000⟩, ⟨0xC000, 0xF000⟩, ⟨0xD000, 0xF000⟩, ⟨0xF007, 0xF0FF⟩,
   ⟨0xF015, 0xF0FF⟩, ⟨0xF01E, 0xF0FF⟩, ⟨0xF029, 0xF0FF⟩, ⟨0xF033, 0xF0FF⟩, ⟨0xF055, 0xF0FF⟩,
   ⟨0xF065, 0xF0FF⟩]

/-- Whether a word is of a row (R65). -/
def OpcodeRow.covers (r : OpcodeRow) (w : Word) : Bool := w &&& r.mask == r.pattern

end Sys2Proof
end

