-- ==== Sys2Proof/Config.lean ====
section
/-! DEFINITION. What is fixed for the machine: the sizes of 00_scope.md R5, the default glyph table of
20_memory.md R43, and the free inputs of a step (40_step_cycle.md R81), which have no body, so that
nothing can be proved about their values. -/

namespace Sys2Proof

/-- `ADDR_MAX` (R5): the greatest Memory address. -/
abbrev Config.addrMax : Nat := 0xFFF

/-- The number of glyph bytes: Memory 0x000 to 0x04F is the read-only glyph table (R5, R41). -/
abbrev Config.glyphBytes : Nat := 80

/-- `PROG_BASE` (R5): where load puts the program and where `pc` starts. -/
abbrev Config.progBase : Nat := 0x200

/-- `PROG_MAX_LEN` (R5): the longest program load accepts, 4096 - 0x200. -/
abbrev Config.progMaxLen : Nat := 3584

/-- The default value of the parameter `GLYPHS` (R43): the customary 4-pixel-wide font, five bytes a
digit, digits 0 to F. DESIGN CHOICE (log entry 1): the spec leaves the table open and marks this default
general knowledge. UNSAFE where a claim rests on a byte of it; the machine's own table is the field
`glyphs` of State. -/
def Config.defaultGlyphs : Vector Byte Config.glyphBytes :=
  (#v[0xF0, 0x90, 0x90, 0x90, 0xF0,  0x20, 0x60, 0x20, 0x20, 0x70,
      0xF0, 0x10, 0xF0, 0x80, 0xF0,  0xF0, 0x10, 0xF0, 0x10, 0xF0,
      0x90, 0x90, 0xF0, 0x10, 0x10,  0xF0, 0x80, 0xF0, 0x10, 0xF0,
      0xF0, 0x80, 0xF0, 0x90, 0xF0,  0xF0, 0x10, 0x20, 0x40, 0x40] : Vector Byte 40) ++
  (#v[0xF0, 0x90, 0xF0, 0x90, 0xF0,  0xF0, 0x90, 0xF0, 0x10, 0xF0,
      0xF0, 0x90, 0xF0, 0x90, 0x90,  0xE0, 0x90, 0xE0, 0x90, 0xE0,
      0xF0, 0x80, 0x80, 0x80, 0xF0,  0xE0, 0x90, 0x90, 0x90, 0xE0,
      0xF0, 0x80, 0xF0, 0x80, 0xF0,  0xF0, 0x80, 0xF0, 0x80, 0x80] : Vector Byte 40)

/-- FREE VALUE (log entry 2). The random byte `rnd` the host supplies with the step that receives the
`k`th inputs (R81, R91): any byte, a new one for each completed step. -/
opaque Config.rndInput : Nat → Byte

/-- FREE VALUE (log entry 3). The gate's verdict `tick_due` for the step that receives the `k`th inputs
(R81, R222): any Boolean, under no law. -/
opaque Config.tickInput : Nat → Bool

/-- FREE VALUE (log entry 4). The wall-clock time `NOW` at the timer check of the step that receives the
`k`th inputs (R216): any time. -/
opaque Config.nowInput : Nat → Nat

/-- FREE VALUE (log entry 4). How many units of the wall clock make 1/60 of a second (R216, R222: the
source gives wall-clock time no unit). -/
opaque Config.sixtieth : Nat

end Sys2Proof
end

