-- ==== Sys2Proof/Machine/State.lean ====
section
/-! DEFINITION. The machine's state as plain data, every piece 10_state.md gives it, and its value after
construction (70_reset_and_hazards.md R240). -/

namespace Sys2Proof.Machine

/-- The four error kinds (60_exceptions.md R200 to R205). The spec describes what raising one does (R206:
the machine halts with its fault status set, everything else kept), so the machine TAKES it: a meaning
that raises one answers `Outcome.next`, and no step of this model answers `Outcome.fault`. -/
inductive Fault where
  /-- Raised by the decode phase of a step whose word matches no row of the table (R201). Safe: the
  machine halts as the spec says. -/
  | unsupportedOpcode
  /-- Raised by `RET` with an empty stack (R202). Safe, as above. -/
  | stackUnderflow
  /-- Raised by `CALL` with a full stack (R203). Safe, as above. -/
  | stackOverflow
  /-- Raised by a fetch, a data access, a sprite cell, an index sum or a new `pc` out of bounds, by a write
  to the glyph table, and by a load of more than 3584 bytes (R204). Safe, as above. -/
  | outOfBoundsAccess
  deriving DecidableEq, Repr

/-- Why an instruction has no meaning. -/
inductive Refusal where
  /-- An arm of `exec` that is not modelled yet, by its mnemonic. No arm raises it. Safe. -/
  | notModelled (mnemonic : String)
  deriving DecidableEq, Repr

/-- The framebuffer (R21): 32 rows, row 0 topmost, of 64 one-bit cells, column 0 leftmost. The cell
`FB[cy * 64 + cx]` is column `cx` of row `cy`. -/
abbrev Framebuffer := Vector (Vector Bool 64) 32

/-- Memory 0x050 to 0xFFF as the cells that are not zero, addresses strictly rising (R40, R41). -/
abbrev Memory := List Host.Cell

/-- Everything the spec gives the machine, and one field (`inputs`) of the model's own. -/
structure State where
  /-- `x[0]` to `x[15]` (R10); `x[15]` is also the flag (R12). -/
  regs : Vector Byte 16
  /-- `I`, the index register (R14). -/
  index : Addr
  /-- The program counter: the address of the next instruction, during a step that of the instruction
  being executed (R15). -/
  pc : Addr
  /-- `STACK[0]` to `STACK[31]` (R17). -/
  stack : Vector Addr 32
  /-- `SP`: how many stack cells are in use, 0 to 32 (R18, C1). -/
  sp : Fin 33
  /-- `GLYPHS`: the read-only bytes at Memory 0x000 to 0x04F (R42, R43, R45), a parameter of
  construction (R5). -/
  glyphs : Vector Byte Config.glyphBytes
  /-- The writable Memory, 0x050 to 0xFFF; an address it does not list reads 0x00 (R30). -/
  mem : Memory
  /-- `FB` (R21). -/
  fb : Framebuffer
  /-- `DT`, the delay timer (R22). -/
  dt : Byte
  /-- `ST`, the sound timer (R23). -/
  st : Byte
  /-- `HALT`: true once a fault has been raised (R24). -/
  halt : Bool
  /-- `FKIND`: the code of the fault kind (R24, R205). -/
  fkind : BitVec 3
  /-- `FINSN`: the word that faulted (R24). -/
  finsn : Word
  /-- `FADDR`: the address of the word that faulted (R24). -/
  faddr : Addr
  /-- `KEYS`: bit `k` is set while key `k` is down (R25). No instruction reads it. -/
  keys : BitVec 16
  /-- `TREF`: the time of the last decrement of the timers (R26). -/
  tref : Nat
  /-- THE MODEL'S OWN, not the spec's (log entry 2): which of the free inputs the next step receives, one
  more after every completed step. -/
  inputs : Nat
  deriving DecidableEq, Repr

/-- Every cell of the framebuffer 0. -/
def Framebuffer.clear : Framebuffer := Vector.replicate 32 (Vector.replicate 64 false)

/-- Construction (R240) with the glyph table `glyphs` at the time `now`; `inputs` is where the free input
streams stand. The values of `I`, the stack cells, the fault status, `KEYS` and `TREF` are the spec's
(decisions D21, D22, D27, D28). -/
def State.construct (glyphs : Vector Byte Config.glyphBytes) (now inputs : Nat) : State where
  regs := Vector.replicate 16 0
  index := 0
  pc := 0x200
  stack := Vector.replicate 32 0
  sp := 0
  glyphs := glyphs
  mem := []
  fb := Framebuffer.clear
  dt := 0
  st := 0
  halt := false
  fkind := 0
  finsn := 0
  faddr := 0
  keys := 0
  tref := now
  inputs := inputs

/-- The machine right after construction (R30, R240), with the default glyph table (DESIGN CHOICE, log entry 1)
and time counted from construction (DESIGN CHOICE, log entry 4). -/
def State.reset : State := State.construct Config.defaultGlyphs 0 0

end Sys2Proof.Machine
end

