-- ==== Sys2Proof/Machine/Ops.lean ====
section
/-! DEFINITION. The named operations every instruction is written with: registers, Memory, the stack,
the framebuffer, raising a fault, committing a new `pc`, the fetch and the timer check. -/

namespace Sys2Proof.Machine

/-- What executing an instruction, or a step, answers. -/
abbrev Result := Host.Outcome State Fault Refusal

/-! Registers (10_state.md R10 to R15). -/

/-- `x[k]` (R7, R10). -/
def State.reg (s : State) (x : RegIx) : Byte := s.regs[x.val]

/-- `x[k] <- v` (R7). -/
def State.setReg (s : State) (x : RegIx) (v : Byte) : State := { s with regs := s.regs.set x.val v }

/-- The flag write: the 8-bit value 0x01 or 0x00 into `x[0xF]` (R12). -/
def State.setFlag (s : State) (b : Bool) : State := s.setReg flagReg (if b then 1 else 0)

/-- `I <- v` (R14). -/
def State.setIndex (s : State) (v : Addr) : State := { s with index := v }

/-- `pc <- v`, the value already checked (R15). -/
def State.setPc (s : State) (v : Addr) : State := { s with pc := v }

/-- `DT <- v` (R22). -/
def State.setDt (s : State) (v : Byte) : State := { s with dt := v }

/-- `FB <- f` (R21). -/
def State.setFb (s : State) (f : Framebuffer) : State := { s with fb := f }

/-! Memory (20_memory.md R40 to R48). -/

/-- The byte at `a` in the writable Memory: 0x00 where nothing is listed (R30). -/
def Memory.read : Memory → Nat → Byte
  | [], _ => 0
  | (b, v) :: rest, a => if a = b then v else Memory.read rest a

/-- Put `v` at `a`, in the canonical form: rising addresses, no zero listed. -/
def Memory.write : Memory → Nat → Byte → Memory
  | [], a, v => if v = 0 then [] else [(a, v)]
  | (b, w) :: rest, a, v =>
    if a < b then (if v = 0 then (b, w) :: rest else (a, v) :: (b, w) :: rest)
    else if a = b then (if v = 0 then rest else (a, v) :: rest)
    else (b, w) :: Memory.write rest a v

/-- Every address listed is at least `lo` and below 0x1000, the addresses rise strictly and no listed byte
is zero. -/
def Memory.wfFrom : Nat → Memory → Bool
  | _, [] => true
  | lo, (a, v) :: rest => decide (lo ≤ a) && decide (a ≤ Config.addrMax) && decide (v ≠ 0) && Memory.wfFrom (a + 1) rest

/-- The canonical form of the writable Memory: it lists addresses 0x050 to 0xFFF only (R41). -/
def Memory.wf (m : Memory) : Bool := Memory.wfFrom Config.glyphBytes m

/-- Put a sequence of bytes at `a`, `a + 1`, … in ascending order (R7, R48). -/
def Memory.writeAll (m : Memory) (a : Nat) : List Byte → Memory
  | [] => m
  | v :: rest => Memory.writeAll (Memory.write m a v) (a + 1) rest

/-- One byte of Memory at an address up to 0xFFF: the glyph table below 0x050, the writable Memory above
(R41). -/
def State.readByte (s : State) (a : Nat) : Byte := if h : a < Config.glyphBytes then s.glyphs[a] else s.mem.read a

/-- The bytes at `a`, …, `a + n - 1`, in ascending address order (R7). -/
def State.bytesAt (s : State) (a n : Nat) : List Byte := (List.range n).map fun k => s.readByte (a + k)

/-- `MemRead(a, n)`: OutOfBoundsAccess when a byte of the range lies above 0xFFF; the address is a natural
number and never wraps (R44). Reading the glyph table is legal (R45). No byte, no check. -/
def State.memRead (s : State) (a n : Nat) : Except Fault (List Byte) :=
  if n = 0 ∨ a + n ≤ Config.addrMax + 1 then .ok (s.bytesAt a n) else .error .outOfBoundsAccess

/-- `MemWrite(a, n, bytes)`: OutOfBoundsAccess when a byte of the range lies above 0xFFF (R44) or in the
glyph table 0x000 to 0x04F (R45); the whole range is checked before the first byte is written (R48). -/
def State.memWrite (s : State) (a : Nat) (bytes : List Byte) : Except Fault State :=
  if bytes.length = 0 ∨ (a + bytes.length ≤ Config.addrMax + 1 ∧ Config.glyphBytes ≤ a) then
    .ok { s with mem := s.mem.writeAll a bytes }
  else .error .outOfBoundsAccess

/-! The stack (10_state.md R17 to R19). -/

/-- Push: StackOverflow with all 32 cells in use, else `STACK[SP] <- v` and `SP <- SP + 1` (R102). -/
def State.push (s : State) (v : Addr) : Except Fault State :=
  if h : s.sp.val < 32 then .ok { s with stack := s.stack.set s.sp.val v, sp := ⟨s.sp.val + 1, by omega⟩ }
  else .error .stackOverflow

/-- Pop: StackUnderflow with no cell in use, else the value of `STACK[SP - 1]` and `SP <- SP - 1`; the cell
keeps its value (R103, R19). -/
def State.pop (s : State) : Except Fault (Addr × State) :=
  if h : s.sp.val = 0 then .error .stackUnderflow
  else .ok (s.stack[s.sp.val - 1]'(by have := s.sp.isLt; omega), { s with sp := ⟨s.sp.val - 1, by have := s.sp.isLt; omega⟩ })

/-! The framebuffer (10_state.md R21, 20_memory.md R51). -/

/-- The cell of column `col` in row `row`; there is none outside the grid. -/
def Framebuffer.cell (f : Framebuffer) (row col : Nat) : Bool := (f.getD row (Vector.replicate 64 false)).getD col false

/-- Set the cell of column `col` in row `row`. -/
def Framebuffer.setCell (f : Framebuffer) (row col : Nat) (v : Bool) : Framebuffer :=
  f.setIfInBounds row ((f.getD row (Vector.replicate 64 false)).setIfInBounds col v)

/-! Taking a fault (60_exceptions.md R205, R206). -/

/-- The codes of `FKIND` (R205); 0 is none. -/
def Fault.code : Fault → BitVec 3
  | .unsupportedOpcode => 1
  | .stackUnderflow => 2
  | .stackOverflow => 3
  | .outOfBoundsAccess => 4

/-- FAULT ENTRY (R206), for every fault of a step: `HALT <- 1`, `FKIND` the code, `FINSN` the word that was
fetched (0x0000 if none was), `FADDR` the address the step began at; every other piece of state keeps its
value, `pc` included. There is no return from it (R209). -/
def State.enterFault (s : State) (k : Fault) (w : Word) : State :=
  { s with halt := true, fkind := k.code, finsn := w, faddr := s.pc }

/-- `raise k` inside instruction `i` (R8): nothing of the instruction is committed; the state `s` from before
the step takes the fault. The word of `i` is the word that was fetched (R206). -/
def raise (k : Fault) (i : Instr) (s : State) : Result := .next (s.enterFault k (encodeWord i))

/-- Go on with a checked value, or raise what the check raised. -/
def orRaise {α : Type} (i : Instr) (s : State) (e : Except Fault α) (f : α → Result) : Result :=
  match e with
  | .ok v => f v
  | .error k => raise k i s

/-- Commit the writes `t` of instruction `i` with the new program counter `v`, a natural number: above 0xFFF
the instruction raises OutOfBoundsAccess and nothing is committed (40_step_cycle.md R85, R87). -/
def commitPc (i : Instr) (s t : State) (v : Nat) : Result :=
  if v ≤ Config.addrMax then .next (t.setPc (BitVec.ofNat 12 v)) else raise .outOfBoundsAccess i s

/-- Commit the writes `t` with the generic advance by 2 (R86). -/
def advance (i : Instr) (s t : State) : Result := commitPc i s t (s.pc.toNat + 2)

/-- A skip writes nothing but `pc`: 4 further when the condition holds, else 2 (41_control_flow.md R108). -/
def skipIf (i : Instr) (s : State) (c : Bool) : Result := commitPc i s s (s.pc.toNat + if c then 4 else 2)

/-! The other phases of a step (40_step_cycle.md R82). -/

/-- The fetch (R83): the word of the two bytes at `pc` and `pc + 1`, OutOfBoundsAccess when the second lies
above 0xFFF, that is when `pc` is 0xFFF. -/
def State.fetch (s : State) : Except Fault Word :=
  if s.pc.toNat + 1 ≤ Config.addrMax then
    .ok (wordOfBytes (s.readByte s.pc.toNat) (s.readByte (s.pc.toNat + 1)))
  else .error .outOfBoundsAccess

/-- One decrement of a timer, floor 0 (60_exceptions.md R217). -/
def tickDown (fires : Bool) (t : Byte) : Byte := if t = 0 then 0 else if fires then t - 1 else t

/-- The timer check (40_step_cycle.md R89): when the gate fires both timers go down by 1 and `TREF` becomes the
time of the check (R219); otherwise nothing happens. -/
def State.timerCheck (s : State) (fires : Bool) (now : Nat) : State :=
  { s with dt := tickDown fires s.dt, st := tickDown fires s.st, tref := if fires then now else s.tref }

/-- The model's own: the next step receives the next of the free inputs (log entry 2). -/
def State.nextInputs (s : State) : State := { s with inputs := s.inputs + 1 }

/-- The end of a step whose instruction answered: a faulted step makes no timer check (R89, R220), a completed
one makes it with the gate's verdict and the time of this step's inputs. -/
def finishStep : Result → Result
  | .next t =>
    if t.halt then .next t
    else .next (t.timerCheck (Config.tickInput t.inputs) (Config.nowInput t.inputs)).nextInputs
  | .fault k => .fault k
  | .refused r => .refused r

/-- Put a byte anywhere in Memory, the glyph table included: no instruction and no host operation does this;
it serves `State.withFetchWord` alone. -/
def State.placeByte (s : State) (a : Nat) (v : Byte) : State :=
  if h : a < Config.glyphBytes then { s with glyphs := s.glyphs.set a v } else { s with mem := s.mem.write a v }

/-- Put a word where the next step fetches, and make it fetch: a halted machine fetches nothing (R88) and no
word can be fetched at 0xFFF (R83), so `HALT` is cleared and a `pc` of 0xFFF moved to 0x200. -/
def State.placeWord (s : State) (w : Word) : State :=
  let pc := if s.pc = 0xFFF then BitVec.ofNat 12 Config.progBase else s.pc
  let t := { s with halt := false, pc := pc }
  (t.placeByte pc.toNat (w.extractLsb' 8 8)).placeByte (pc.toNat + 1) (w.extractLsb' 0 8)

end Sys2Proof.Machine
end

