-- ==== Sys2Proof/Machine/Operands.lean ====
section
/-! DEFINITION. Every operand form of the instructions (30_encoding.md R64, 43_index_memory.md R146):
what an operand reads, as a value of the state before the step (00_scope.md R8). -/

namespace Sys2Proof.Machine

/-- The base of the one data addressing mode: `I` as a natural number; the effective address is `I + k`,
never wrapped (R146). -/
def State.base (s : State) : Nat := s.index.toNat

/-- The sum `NNN + x[0]` or `I + x[X]`, a natural number of at most 0x10FE (R101, R141). -/
def addrPlus (a : Addr) (v : Byte) : Nat := a.toNat + v.toNat

/-- An address register takes a natural number up to 0xFFF; above it OutOfBoundsAccess (R14, R141). -/
def toAddr (v : Nat) : Except Fault Addr :=
  if v ≤ Config.addrMax then .ok (BitVec.ofNat 12 v) else .error .outOfBoundsAccess

/-- The address of the glyph for the low 4 bits of a register: `5 * d` (R142). -/
def glyphAddr (v : Byte) : Addr := BitVec.ofNat 12 (5 * (v.extractLsb' 0 4).toNat)

/-- The three decimal digits of a byte, hundreds first, each as a byte 0 to 9 (R143). -/
def decimalDigits (v : Byte) : List Byte :=
  [BitVec.ofNat 8 (v.toNat / 100), BitVec.ofNat 8 (v.toNat / 10 % 10), BitVec.ofNat 8 (v.toNat % 10)]

/-- The registers `x[0]` to `x[X]`, `X + 1` of them, in ascending order (R144). -/
def State.regsUpTo (s : State) (x : RegIx) : List Byte := s.regs.toList.take (x.val + 1)

/-- `x[k] <- bytes[k]` for every `k` the bytes reach; the registers above keep their values (R145). -/
def State.setRegs (s : State) (bytes : List Byte) : State :=
  { s with regs := Vector.ofFn fun k => bytes.getD k.val s.regs[k.val] }

/-- The pixel of a sprite row at column offset `j`: bit 7 is the leftmost (R162). -/
def spritePixel (row : Byte) (j : Nat) : Bool := row.getLsbD (7 - j)

/-- Whether all `8 * n` targeted cells of a sprite at column `cx`, row `cy` lie in the 64 by 32 grid,
whatever its bits; no row targets no cell (R163, R166). -/
def spriteFits (cx cy n : Nat) : Bool := n == 0 || (decide (cx + 7 ≤ 63) && decide (cy + n - 1 ≤ 31))

end Sys2Proof.Machine
end

