-- ==== Sys2Proof/Machine/Flags.lean ====
section
/-! DEFINITION. The three values that reach the flag register (10_state.md R13): carry, not borrow and
collision, each from the operands as they were before the instruction (42_alu.md R129). -/

namespace Sys2Proof.Machine

/-- The carry of `ADD Vx, Vy`: the exact sum exceeds 255 (R125). -/
def carryFlag (a b : Byte) : Bool := decide (a.toNat + b.toNat > 255)

/-- The flag of `SUB Vx, Vy`: false when `a < b`, else true (R126). -/
def notBorrowFlag (a b : Byte) : Bool := !decide (a.toNat < b.toNat)

/-- Collision of one pixel: the sprite bit is 1 and the cell was 1 before the instruction (R164). -/
def collides (pixel old : Bool) : Bool := pixel && old

/-- `x[X] <- v`, then the flag: the flag is written last and wins when `X` is 0xF (R129). -/
def State.setRegThenFlag (s : State) (x : RegIx) (v : Byte) (flag : Bool) : State := (s.setReg x v).setFlag flag

end Sys2Proof.Machine
end

