-- ==== Sys2Proof/Machine/Alu.lean ====
section
/-! DEFINITION. The register and arithmetic instructions (42_alu.md R120 to R127): unsigned 8-bit values,
wrapping modulo 256 (R128). -/

namespace Sys2Proof.Machine

/-- `LD Vx, NN` (R120). -/
def execLdImm (x : RegIx) (nn : Byte) (s : State) : Result := advance (.ldImm x nn) s (s.setReg x nn)

/-- `ADD Vx, NN` (R121): no flag. -/
def execAddImm (x : RegIx) (nn : Byte) (s : State) : Result :=
  advance (.addImm x nn) s (s.setReg x (s.reg x + nn))

/-- `LD Vx, Vy` (R122): second into first. -/
def execLdReg (x y : RegIx) (s : State) : Result := advance (.ldReg x y) s (s.setReg x (s.reg y))

/-- `OR Vx, Vy` (R123). -/
def execOrReg (x y : RegIx) (s : State) : Result := advance (.orReg x y) s (s.setReg x (s.reg x ||| s.reg y))

/-- `AND Vx, Vy` (R124). -/
def execAndReg (x y : RegIx) (s : State) : Result := advance (.andReg x y) s (s.setReg x (s.reg x &&& s.reg y))

/-- `ADD Vx, Vy` (R125, R129). -/
def execAddReg (x y : RegIx) (s : State) : Result :=
  advance (.addReg x y) s (s.setRegThenFlag x (s.reg x + s.reg y) (carryFlag (s.reg x) (s.reg y)))

/-- `SUB Vx, Vy` (R126, R129). -/
def execSubReg (x y : RegIx) (s : State) : Result :=
  advance (.subReg x y) s (s.setRegThenFlag x (s.reg x - s.reg y) (notBorrowFlag (s.reg x) (s.reg y)))

/-- What `RND Vx, NN` does with the random byte `b` (R127). -/
def rndWith (b : Byte) (x : RegIx) (nn : Byte) (s : State) : Result := advance (.rnd x nn) s (s.setReg x (b &&& nn))

/-- `RND Vx, NN` (R127): the random byte is this step's free input (R91, log entry 2). -/
def execRnd (x : RegIx) (nn : Byte) (s : State) : Result := rndWith (Config.rndInput s.inputs) x nn s

end Sys2Proof.Machine
end

