-- ==== Sys2Proof/Machine/ControlFlow.lean ====
section
/-! DEFINITION. The control-flow instructions (41_control_flow.md R100 to R107). -/

namespace Sys2Proof.Machine

/-- `RET` (R103): pop, then `pc` is 2 past the popped address. -/
def execRet (s : State) : Result :=
  orRaise .ret s s.pop fun (a, t) => commitPc .ret s t (a.toNat + 2)

/-- `JP NNN` (R100). -/
def execJp (nnn : Addr) (s : State) : Result := commitPc (.jp nnn) s s nnn.toNat

/-- `CALL NNN` (R102): push the address of this instruction, then jump. -/
def execCall (nnn : Addr) (s : State) : Result :=
  orRaise (.call nnn) s (s.push s.pc) fun t => commitPc (.call nnn) s t nnn.toNat

/-- `SE Vx, NN` (R104). -/
def execSeImm (x : RegIx) (nn : Byte) (s : State) : Result := skipIf (.seImm x nn) s (s.reg x == nn)

/-- `SNE Vx, NN` (R105). -/
def execSneImm (x : RegIx) (nn : Byte) (s : State) : Result := skipIf (.sneImm x nn) s (s.reg x != nn)

/-- `SE Vx, Vy` (R106). -/
def execSeReg (x y : RegIx) (s : State) : Result := skipIf (.seReg x y) s (s.reg x == s.reg y)

/-- `SNE Vx, Vy` (R107). -/
def execSneReg (x y : RegIx) (s : State) : Result := skipIf (.sneReg x y) s (s.reg x != s.reg y)

/-- `JP V0, NNN` (R101): always `x[0]`, the sum not wrapped. -/
def execJpV0 (nnn : Addr) (s : State) : Result := commitPc (.jpV0 nnn) s s (addrPlus nnn (s.reg 0))

end Sys2Proof.Machine
end

