-- ==== Sys2Proof/Machine/Display.lean ====
section
/-! DEFINITION. The display instructions and the sprite compositor (44_display.md R160 to R168). -/

namespace Sys2Proof.Machine

/-- `CLS` (R160). -/
def execCls (s : State) : Result := advance .cls s (s.setFb Framebuffer.clear)

/-- One pixel of the compositor (R161, R162): the cell takes its old value exclusive-or the sprite bit, and a
bit 1 on an old cell 1 is a collision. `fb` is the framebuffer before the instruction (R8, R164); `acc` is
the framebuffer so far and whether anything has collided. -/
def drawPixel (fb : Framebuffer) (rowByte : Byte) (row cx : Nat) (acc : Framebuffer × Bool) (j : Nat) :
    Framebuffer × Bool :=
  let old := fb.cell row (cx + j)
  let pixel := spritePixel rowByte j
  (acc.1.setCell row (cx + j) (old ^^ pixel), acc.2 || collides pixel old)

/-- One sprite row: its eight pixels, left to right. -/
def drawRow (fb : Framebuffer) (cx row : Nat) (rowByte : Byte) (acc : Framebuffer × Bool) : Framebuffer × Bool :=
  (List.range 8).foldl (drawPixel fb rowByte row cx) acc

/-- The sprite rows from row `row` down. -/
def drawRows (fb : Framebuffer) (cx : Nat) : Nat → List Byte → Framebuffer × Bool → Framebuffer × Bool
  | _, [], acc => acc
  | row, b :: rest, acc => drawRows fb cx (row + 1) rest (drawRow fb cx row b acc)

/-- The compositor: the framebuffer after drawing the sprite at column `cx`, row `cy`, and the collision. -/
def drawSprite (fb : Framebuffer) (cx cy : Nat) (sprite : List Byte) : Framebuffer × Bool :=
  drawRows fb cx cy sprite (fb, false)

/-- `DRW Vx, Vy, N` (R161): sprite bytes beyond Memory and targeted cells outside the grid fault (R163); the
coordinates are read before the flag is written (R165); with `N = 0` nothing is checked and the flag is
cleared (R166). -/
def execDrw (x y : RegIx) (n : Nat) (s : State) : Result :=
  orRaise (.drw x y n) s (s.memRead s.base n) fun sprite =>
    if spriteFits (s.reg x).toNat (s.reg y).toNat n then
      advance (.drw x y n) s
        ((s.setFb (drawSprite s.fb (s.reg x).toNat (s.reg y).toNat sprite).1).setFlag
          (drawSprite s.fb (s.reg x).toNat (s.reg y).toNat sprite).2)
    else raise .outOfBoundsAccess (.drw x y n) s

end Sys2Proof.Machine
end

