-- ==== Sys2Proof/Machine/IndexMemory.lean ====
section
/-! DEFINITION. The index register, decimal conversion and block transfer instructions
(43_index_memory.md R140 to R145). The three that reach Memory leave `I` as it was (R147). -/

namespace Sys2Proof.Machine

/-- `LD I, NNN` (R140). -/
def execLdI (nnn : Addr) (s : State) : Result := advance (.ldI nnn) s (s.setIndex nnn)

/-- `ADD I, Vx` (R141): a sum above 0xFFF faults, no flag. -/
def execAddI (x : RegIx) (s : State) : Result :=
  orRaise (.addI x) s (toAddr (addrPlus s.index (s.reg x))) fun v => advance (.addI x) s (s.setIndex v)

/-- `LD F, Vx` (R142). -/
def execLdF (x : RegIx) (s : State) : Result := advance (.ldF x) s (s.setIndex (glyphAddr (s.reg x)))

/-- `LD B, Vx` (R143). -/
def execLdB (x : RegIx) (s : State) : Result :=
  orRaise (.ldB x) s (s.memWrite s.base (decimalDigits (s.reg x))) fun t => advance (.ldB x) s t

/-- `LD [I], Vx` (R144). -/
def execStoreRegs (x : RegIx) (s : State) : Result :=
  orRaise (.storeRegs x) s (s.memWrite s.base (s.regsUpTo x)) fun t => advance (.storeRegs x) s t

/-- `LD Vx, [I]` (R145). -/
def execLoadRegs (x : RegIx) (s : State) : Result :=
  orRaise (.loadRegs x) s (s.memRead s.base (x.val + 1)) fun bytes => advance (.loadRegs x) s (s.setRegs bytes)

end Sys2Proof.Machine
end

