-- ==== Sys2Proof/Machine/TimerAccess.lean ====
section
/-! DEFINITION. The timer access instructions (45_timer_access.md R180, R181). The sound timer has none
(R182). -/

namespace Sys2Proof.Machine

/-- `LD Vx, DT` (R180): the value before this step's timer check. -/
def execLdFromDt (x : RegIx) (s : State) : Result := advance (.ldFromDt x) s (s.setReg x s.dt)

/-- `LD DT, Vx` (R181): the timer check of this same step may already decrement the new value (R89). -/
def execLdDt (x : RegIx) (s : State) : Result := advance (.ldDt x) s (s.setDt (s.reg x))

end Sys2Proof.Machine
end

