-- ==== Sys2Proof/Machine/Step.lean ====
section
/-! DEFINITION. One step (40_step_cycle.md R82): halted check, fetch, decode, execute and commit, timer
check. Every phase is an operation of Machine/Ops.lean or Decode.lean. -/

namespace Sys2Proof.Machine

/-- One step, in full (R82). A halted machine does nothing (R88); a fetch out of bounds records the word 0x0000
(R83); a word outside the table raises UnsupportedOpcode before anything is read (R84); an instruction that
faults has halted the machine, and then no timer check is made (R89). -/
def step (s : State) : Host.Outcome State Fault Refusal :=
  if s.halt then .next s
  else
    match s.fetch with
    | .error k => .next (s.enterFault k 0)
    | .ok w =>
      match decodeWord w with
      | .error _ => .next (s.enterFault .unsupportedOpcode w)
      | .ok i => finishStep (exec i s)

/-- `s` with the instruction of the table's bits stored where the next step fetches (log entry 6). -/
def State.withFetchWord (s : State) (nbits w : Nat) : State := s.placeWord (BitVec.ofNat 16 (w % 2 ^ nbits))

end Sys2Proof.Machine
end

