-- ==== Sys2Proof/Machine/HostPort.lean ====
section
/-! DEFINITION. The host's side of the core (70_reset_and_hazards.md R246): load, key events, the framebuffer
and fault status ports, and the outputs of a step (40_step_cycle.md R81, R90). The host acts between steps
only (R92), so each operation is a function of the state. -/

namespace Sys2Proof.Machine

/-- Load (R241) of a program at the time `now`: everything but the glyph table and `KEYS` takes its reset value,
then the bytes are copied to 0x200 upward. More than 3584 bytes are not copied at all and leave the machine
halted with OutOfBoundsAccess, word 0x0000, address 0x200 (R242). The free input streams go on (log entry 2). -/
def State.load (s : State) (now : Nat) (prog : List Byte) : State :=
  let t := { State.construct s.glyphs now s.inputs with keys := s.keys }
  if prog.length ≤ Config.progMaxLen then { t with mem := t.mem.writeAll Config.progBase prog }
  else t.enterFault .outOfBoundsAccess 0

/-- Key `k` goes down: bit `k` of `KEYS` is set, nothing else (R247). -/
def State.keyDown (s : State) (k : Fin 16) : State := { s with keys := s.keys ||| ((1#16) <<< k.val) }

/-- Key `k` goes up: bit `k` of `KEYS` is cleared, nothing else (R247). -/
def State.keyUp (s : State) (k : Fin 16) : State := { s with keys := s.keys &&& ~~~((1#16) <<< k.val) }

/-- `FB[k]`, as the framebuffer read port shows it: cell `k` is column `k mod 64` of row `k div 64` (R21, R248). -/
def State.readCell (s : State) (k : Nat) : Bool := s.fb.cell (k / 64) (k % 64)

/-- The framebuffer read port: all 2048 cells, row-major (R248). -/
def State.readFramebuffer (s : State) : List Bool := (List.range 2048).map s.readCell

/-- The fault status as the host reads it (R24). -/
structure FaultStatus where
  halt : Bool
  fkind : BitVec 3
  finsn : Word
  faddr : Addr
  deriving DecidableEq, Repr

/-- The fault status port (R24, R246). -/
def State.faultStatus (s : State) : FaultStatus := ⟨s.halt, s.fkind, s.finsn, s.faddr⟩

/-- The host's operations (R246). -/
inductive HostOp where
  | construct (glyphs : Vector Byte Config.glyphBytes) (now : Nat)
  | load (now : Nat) (prog : List Byte)
  | step
  | keyDown (k : Fin 16)
  | keyUp (k : Fin 16)
  | readFramebuffer
  | readFaultStatus
  deriving DecidableEq, Repr

/-- The effect of a host operation on the core (R246); the two reads have none (R248). -/
def hostOp (op : HostOp) (s : State) : Result :=
  match op with
  | .construct glyphs now => .next (State.construct glyphs now s.inputs)
  | .load now prog => .next (s.load now prog)
  | .step => Sys2Proof.Machine.step s
  | .keyDown k => .next (s.keyDown k)
  | .keyUp k => .next (s.keyUp k)
  | .readFramebuffer => .next s
  | .readFaultStatus => .next s

/-- Whether an instruction raises `redraw`: "`CLS` or `DRW`", whatever it changed (R90). -/
def raisesRedraw : Instr → Bool
  | .cls => true
  | .drw _ _ _ => true
  | .ret | .jp _ | .call _ | .seImm _ _ | .sneImm _ _ | .seReg _ _ | .ldImm _ _ | .addImm _ _ | .ldReg _ _
  | .orReg _ _ | .andReg _ _ | .addReg _ _ | .subReg _ _ | .sneReg _ _ | .ldI _ | .jpV0 _ | .rnd _ _
  | .ldFromDt _ | .ldDt _ | .addI _ | .ldF _ | .ldB _ | .storeRegs _ | .loadRegs _ => false

/-- The instruction the next step executes: none on a halted machine, at a fetch that faults and at a word
outside the table. -/
def State.nextInstr (s : State) : Option Instr :=
  if s.halt then none
  else
    match s.fetch with
    | .error _ => none
    | .ok w =>
      match decodeWord w with
      | .error _ => none
      | .ok i => some i

/-- The outputs of a step (R81): `status`, `redraw` and the fault report. -/
structure StepOutputs where
  status : Bool
  redraw : Bool
  report : FaultStatus
  deriving DecidableEq, Repr

/-- The outputs of the step taken from `s` that left `t` (R81, R90): `status` is `HALT` after the step; `redraw`
is raised by a completed step that executed `CLS` or `DRW`. -/
def stepOutputs (s t : State) : StepOutputs where
  status := t.halt
  redraw := !t.halt && (s.nextInstr.map raisesRedraw).getD false
  report := t.faultStatus

/-- The gate as R216 has it: it fires iff at least 1/60 of a second has gone by since `TREF`. The step takes the
verdict as a free input instead (R222, log entry 3). -/
def gateVerdict (now tref : Nat) : Bool := decide (tref + Config.sixtieth ≤ now)

end Sys2Proof.Machine
end

