-- ==== Sys2Proof/Safety.lean ====
section
/-! DEFINITION. What the claims call a good state and a safe run, in the spec's terms (10_state.md R28,
70_reset_and_hazards.md R249). -/

namespace Sys2Proof.Machine

/-- The invariants of R28 that the types of the fields do not already hold, with the known fault kinds of R205 and the
model's own canonical form of Memory (log entry 11). -/
structure State.Inv (s : State) : Prop where
  /-- DESIGN CHOICE (log entry 11), no rule of the spec: Memory is in the canonical form of its representation and lists
  addresses 0x050 to 0xFFF only. Safe. -/
  memoryCanonical : s.mem.wf = true
  /-- "every `STACK` cell is in 0x000 to 0xFFE". R28. -/
  stackCellsFetchable : ∀ k : Fin 32, s.stack[k.val] ≠ 0xFFF
  /-- "`ST = 0`". R28. -/
  soundTimerZero : s.st = 0
  /-- "`FKIND = 0`, `FINSN = 0`, `FADDR = 0` while `HALT = 0`". R28. -/
  statusClearWhileRunning : s.halt = false → s.fkind = 0 ∧ s.finsn = 0 ∧ s.faddr = 0
  /-- A halted machine reports one of the four kinds; codes 5 to 7 are "never produced" (R205, decision D10 of the spec). -/
  kindKnownWhenHalted : s.halt = true → ∃ k : Fault, s.fkind = k.code

/-- The state of 60_exceptions.md R206 for a fault of code `code` raised with the word `w`: `HALT`, `FKIND`, `FINSN`
and `FADDR` written, every other piece of state as it was. -/
def State.haltedBy (s : State) (code : BitVec 3) (w : Word) : State :=
  { s with halt := true, fkind := code, finsn := w, faddr := s.pc }

/-- The registers an instruction may write (10_state.md R11, R13): its destination, and `x[0xF]` where the
instruction defines a flag. -/
def writesReg (i : Instr) (k : RegIx) : Bool :=
  match i with
  | .ldImm x _ => k == x
  | .addImm x _ => k == x
  | .ldReg x _ => k == x
  | .orReg x _ => k == x
  | .andReg x _ => k == x
  | .addReg x _ => k == x || k == flagReg
  | .subReg x _ => k == x || k == flagReg
  | .rnd x _ => k == x
  | .drw _ _ _ => k == flagReg
  | .ldFromDt x => k == x
  | .loadRegs x => decide (k ≤ x)
  | .cls | .ret | .jp _ | .call _ | .seImm _ _ | .sneImm _ _ | .seReg _ _ | .sneReg _ _ | .ldI _ | .jpV0 _
  | .ldDt _ | .addI _ | .ldF _ | .ldB _ | .storeRegs _ => false

/-- How many bytes an instruction stores, from address `I` up (20_memory.md R50): three digits, `X + 1` registers,
nothing for every other instruction. -/
def storedBytes (i : Instr) : Nat :=
  match i with
  | .ldB _ => 3
  | .storeRegs x => x.val + 1
  | .cls | .ret | .jp _ | .call _ | .seImm _ _ | .sneImm _ _ | .seReg _ _ | .ldImm _ _ | .addImm _ _ | .ldReg _ _
  | .orReg _ _ | .andReg _ _ | .addReg _ _ | .subReg _ _ | .sneReg _ _ | .ldI _ | .jpV0 _ | .rnd _ _
  | .drw _ _ _ | .ldFromDt _ | .ldDt _ | .addI _ | .ldF _ | .loadRegs _ => 0

/-- The new program counter of an instruction that completes, as 10_state.md R16 lists it. -/
def nextPc (i : Instr) (s : State) : Nat :=
  match i with
  | .jp nnn => nnn.toNat
  | .call nnn => nnn.toNat
  | .jpV0 nnn => nnn.toNat + s.regs[0].toNat
  | .ret => (s.stack.getD (s.sp.val - 1) 0).toNat + 2
  | .seImm x nn => s.pc.toNat + if s.regs[x.val] = nn then 4 else 2
  | .sneImm x nn => s.pc.toNat + if s.regs[x.val] = nn then 2 else 4
  | .seReg x y => s.pc.toNat + if s.regs[x.val] = s.regs[y.val] then 4 else 2
  | .sneReg x y => s.pc.toNat + if s.regs[x.val] = s.regs[y.val] then 2 else 4
  | .cls | .ldImm _ _ | .addImm _ _ | .ldReg _ _ | .orReg _ _ | .andReg _ _ | .addReg _ _ | .subReg _ _ | .ldI _
  | .rnd _ _ | .drw _ _ _ | .ldFromDt _ | .ldDt _ | .addI _ | .ldF _ | .ldB _ | .storeRegs _ | .loadRegs _ =>
    s.pc.toNat + 2

/-- A step completes: it is taken on a running machine and leaves it running (R81 `status = 0`). -/
def Completes (s t : State) : Prop := s.halt = false ∧ step s = .next t ∧ t.halt = false

/-- The state after `n` steps; a step always answers a next state. -/
def State.after (s : State) : Nat → State
  | 0 => s
  | n + 1 =>
    match step s with
    | .next t => t.after n
    | .fault _ => s
    | .refused _ => s

/-- A safe run: `n` steps of which none faults ("a faulted state is never a successful end", R249). -/
def FaultFree (s : State) (n : Nat) : Prop := ∀ k, k ≤ n → (s.after k).halt = false

end Sys2Proof.Machine
end

