-- ==== Sys2Proof/Certificates/Slice0/Obligations.lean ====
section
/-! DEFINITION. The statements for the provers. Bounds on `pc` and Memory addresses are decisions D2 and D3 of
the spec, fault entry is decision D10 and D11, the opcode numbering is decision D4 (92_eei_decisions.md); each
docstring names the rule it formalises. In all of them `s.haltedBy code w` is the state of R206: only the fault
status differs from `s`. -/

open Sys2Proof Sys2Proof.Machine

/-! The 26 instructions, in the order of the opcode table. Each statement holds for every operand and every state:
where the instruction decodes from, the whole next state where it completes, and the whole next state where it
faults. A record update says the frame: every field it does not name keeps its value. -/

/-- R160. `CLS` sets every cell to 0, touches nothing else but `pc`, and its step raises `redraw`. -/
def Obligations.ClsClearsEveryCell : Prop :=
  ∀ s : State,
    decodeWord 0x00E0 = .ok .cls ∧
    (s.pc.toNat + 2 ≤ 0xFFF →
      ∃ t, exec .cls s = .next t ∧ (∀ row col : Nat, t.fb.cell row col = false) ∧
        { t with fb := s.fb } = { s with pc := s.pc + 2 }) ∧
    (0xFFF < s.pc.toNat + 2 → exec .cls s = .next (s.haltedBy 4 0x00E0)) ∧
    (s.nextInstr = some .cls → ∀ u, step s = .next u → u.halt = false → (stepOutputs s u).redraw = true)

/-- R103. `RET` goes 2 past the address in the most recent stack cell and lowers `SP`; the cell keeps its value.
With `SP = 0` it is StackUnderflow (code 2), with a return address above 0xFFF OutOfBoundsAccess (code 4). -/
def Obligations.RetReturnsPastTheCall : Prop :=
  ∀ s : State,
    decodeWord 0x00EE = .ok .ret ∧
    (s.sp = 0 → exec .ret s = .next (s.haltedBy 2 0x00EE)) ∧
    (∀ a : Addr, s.sp ≠ 0 → s.stack[s.sp.val - 1]? = some a →
      (a.toNat + 2 ≤ 0xFFF → exec .ret s = .next { s with sp := s.sp - 1, pc := a + 2 }) ∧
      (0xFFF < a.toNat + 2 → exec .ret s = .next (s.haltedBy 4 0x00EE)))

/-- R100. `JP NNN` sets `pc` to the address and changes nothing else; it never faults. -/
def Obligations.JpSetsPc : Prop :=
  ∀ (nnn : Addr) (s : State),
    decodeWord (wordA 0x1 nnn) = .ok (.jp nnn) ∧ exec (.jp nnn) s = .next { s with pc := nnn }

/-- R102. `CALL NNN` pushes its own address, raises `SP` by 1 and jumps; with `SP = 32` it is StackOverflow
(code 3). -/
def Obligations.CallPushesItsAddress : Prop :=
  ∀ (nnn : Addr) (s : State),
    decodeWord (wordA 0x2 nnn) = .ok (.call nnn) ∧
    (s.sp ≠ 32 →
      exec (.call nnn) s =
        .next { s with stack := s.stack.setIfInBounds s.sp.val s.pc, sp := s.sp + 1, pc := nnn }) ∧
    (s.sp = 32 → exec (.call nnn) s = .next (s.haltedBy 3 (wordA 0x2 nnn)))

/-- R104. `SE Vx, NN` skips when the register equals the immediate; a new `pc` above 0xFFF faults. -/
def Obligations.SeImmSkipsWhenEqual : Prop :=
  ∀ (x : RegIx) (nn : Byte) (s : State),
    decodeWord (wordI 0x3 x nn) = .ok (.seImm x nn) ∧
    (s.regs[x.val] = nn → s.pc.toNat + 4 ≤ 0xFFF → exec (.seImm x nn) s = .next { s with pc := s.pc + 4 }) ∧
    (s.regs[x.val] ≠ nn → s.pc.toNat + 2 ≤ 0xFFF → exec (.seImm x nn) s = .next { s with pc := s.pc + 2 }) ∧
    (s.regs[x.val] = nn → 0xFFF < s.pc.toNat + 4 →
      exec (.seImm x nn) s = .next (s.haltedBy 4 (wordI 0x3 x nn))) ∧
    (s.regs[x.val] ≠ nn → 0xFFF < s.pc.toNat + 2 →
      exec (.seImm x nn) s = .next (s.haltedBy 4 (wordI 0x3 x nn)))

/-- R105. `SNE Vx, NN` skips when the register differs from the immediate. -/
def Obligations.SneImmSkipsWhenDifferent : Prop :=
  ∀ (x : RegIx) (nn : Byte) (s : State),
    decodeWord (wordI 0x4 x nn) = .ok (.sneImm x nn) ∧
    (s.regs[x.val] ≠ nn → s.pc.toNat + 4 ≤ 0xFFF → exec (.sneImm x nn) s = .next { s with pc := s.pc + 4 }) ∧
    (s.regs[x.val] = nn → s.pc.toNat + 2 ≤ 0xFFF → exec (.sneImm x nn) s = .next { s with pc := s.pc + 2 }) ∧
    (s.regs[x.val] ≠ nn → 0xFFF < s.pc.toNat + 4 →
      exec (.sneImm x nn) s = .next (s.haltedBy 4 (wordI 0x4 x nn))) ∧
    (s.regs[x.val] = nn → 0xFFF < s.pc.toNat + 2 →
      exec (.sneImm x nn) s = .next (s.haltedBy 4 (wordI 0x4 x nn)))

/-- R106. `SE Vx, Vy` skips when the two registers are equal; `X = Y` is not left out. -/
def Obligations.SeRegSkipsWhenEqual : Prop :=
  ∀ (x y : RegIx) (s : State),
    decodeWord (wordR 0x5 x y 0x0) = .ok (.seReg x y) ∧
    (s.regs[x.val] = s.regs[y.val] → s.pc.toNat + 4 ≤ 0xFFF →
      exec (.seReg x y) s = .next { s with pc := s.pc + 4 }) ∧
    (s.regs[x.val] ≠ s.regs[y.val] → s.pc.toNat + 2 ≤ 0xFFF →
      exec (.seReg x y) s = .next { s with pc := s.pc + 2 }) ∧
    (s.regs[x.val] = s.regs[y.val] → 0xFFF < s.pc.toNat + 4 →
      exec (.seReg x y) s = .next (s.haltedBy 4 (wordR 0x5 x y 0x0))) ∧
    (s.regs[x.val] ≠ s.regs[y.val] → 0xFFF < s.pc.toNat + 2 →
      exec (.seReg x y) s = .next (s.haltedBy 4 (wordR 0x5 x y 0x0)))

/-- R120. `LD Vx, NN`. -/
def Obligations.LdImmLoadsImmediate : Prop :=
  ∀ (x : RegIx) (nn : Byte) (s : State),
    decodeWord (wordI 0x6 x nn) = .ok (.ldImm x nn) ∧
    (s.pc.toNat + 2 ≤ 0xFFF →
      exec (.ldImm x nn) s = .next { s with regs := s.regs.set x.val nn, pc := s.pc + 2 }) ∧
    (0xFFF < s.pc.toNat + 2 → exec (.ldImm x nn) s = .next (s.haltedBy 4 (wordI 0x6 x nn)))

/-- R121. `ADD Vx, NN` wraps modulo 256 and writes no flag. -/
def Obligations.AddImmWrapsWithoutFlag : Prop :=
  ∀ (x : RegIx) (nn : Byte) (s : State),
    decodeWord (wordI 0x7 x nn) = .ok (.addImm x nn) ∧
    (s.pc.toNat + 2 ≤ 0xFFF →
      exec (.addImm x nn) s =
        .next { s with
          regs := s.regs.set x.val (BitVec.ofNat 8 ((s.regs[x.val].toNat + nn.toNat) % 256)), pc := s.pc + 2 }) ∧
    (0xFFF < s.pc.toNat + 2 → exec (.addImm x nn) s = .next (s.haltedBy 4 (wordI 0x7 x nn)))

/-- 42_alu.md, the copy; that the second register goes into the first is decision D20 of the spec. -/
def Obligations.LdRegCopiesSecondIntoFirst : Prop :=
  ∀ (x y : RegIx) (s : State),
    decodeWord (wordR 0x8 x y 0x0) = .ok (.ldReg x y) ∧
    (s.pc.toNat + 2 ≤ 0xFFF →
      exec (.ldReg x y) s = .next { s with regs := s.regs.set x.val s.regs[y.val], pc := s.pc + 2 }) ∧
    (0xFFF < s.pc.toNat + 2 → exec (.ldReg x y) s = .next (s.haltedBy 4 (wordR 0x8 x y 0x0)))

/-- R123. `OR Vx, Vy`, bit by bit, into the first; no flag. -/
def Obligations.OrRegIsBitwiseOr : Prop :=
  ∀ (x y : RegIx) (s : State),
    decodeWord (wordR 0x8 x y 0x1) = .ok (.orReg x y) ∧
    (s.pc.toNat + 2 ≤ 0xFFF →
      ∃ t, exec (.orReg x y) s = .next t ∧
        (∀ b : Nat, t.regs[x.val].getLsbD b = (s.regs[x.val].getLsbD b || s.regs[y.val].getLsbD b)) ∧
        t = { s with regs := s.regs.set x.val t.regs[x.val], pc := s.pc + 2 }) ∧
    (0xFFF < s.pc.toNat + 2 → exec (.orReg x y) s = .next (s.haltedBy 4 (wordR 0x8 x y 0x1)))

/-- R124. `AND Vx, Vy`, bit by bit, into the first; no flag. -/
def Obligations.AndRegIsBitwiseAnd : Prop :=
  ∀ (x y : RegIx) (s : State),
    decodeWord (wordR 0x8 x y 0x2) = .ok (.andReg x y) ∧
    (s.pc.toNat + 2 ≤ 0xFFF →
      ∃ t, exec (.andReg x y) s = .next t ∧
        (∀ b : Nat, t.regs[x.val].getLsbD b = (s.regs[x.val].getLsbD b && s.regs[y.val].getLsbD b)) ∧
        t = { s with regs := s.regs.set x.val t.regs[x.val], pc := s.pc + 2 }) ∧
    (0xFFF < s.pc.toNat + 2 → exec (.andReg x y) s = .next (s.haltedBy 4 (wordR 0x8 x y 0x2)))

/-- R125. `ADD Vx, Vy`: the sum modulo 256 into `x[X]`, then the carry into `x[0xF]`, which wins when `X` is 0xF
(the order is decision D15 of the spec). -/
def Obligations.AddRegSumThenCarry : Prop :=
  ∀ (x y : RegIx) (s : State),
    decodeWord (wordR 0x8 x y 0x4) = .ok (.addReg x y) ∧
    (s.pc.toNat + 2 ≤ 0xFFF →
      exec (.addReg x y) s =
        .next { s with
          regs := (s.regs.set x.val (BitVec.ofNat 8 ((s.regs[x.val].toNat + s.regs[y.val].toNat) % 256))).set 15
            (if s.regs[x.val].toNat + s.regs[y.val].toNat > 255 then 1 else 0),
          pc := s.pc + 2 }) ∧
    (0xFFF < s.pc.toNat + 2 → exec (.addReg x y) s = .next (s.haltedBy 4 (wordR 0x8 x y 0x4)))

/-- R126. `SUB Vx, Vy`: the difference modulo 256 into `x[X]`, then 0 into `x[0xF]` if the first was less, else 1
(the order is decision D15 of the spec). -/
def Obligations.SubRegDifferenceThenNotBorrow : Prop :=
  ∀ (x y : RegIx) (s : State),
    decodeWord (wordR 0x8 x y 0x5) = .ok (.subReg x y) ∧
    (s.pc.toNat + 2 ≤ 0xFFF →
      exec (.subReg x y) s =
        .next { s with
          regs := (s.regs.set x.val
            (BitVec.ofNat 8 ((s.regs[x.val].toNat + 256 - s.regs[y.val].toNat) % 256))).set 15
            (if s.regs[x.val].toNat < s.regs[y.val].toNat then 0 else 1),
          pc := s.pc + 2 }) ∧
    (0xFFF < s.pc.toNat + 2 → exec (.subReg x y) s = .next (s.haltedBy 4 (wordR 0x8 x y 0x5)))

/-- R107. `SNE Vx, Vy` skips when the two registers differ; `X = Y` is not left out. -/
def Obligations.SneRegSkipsWhenDifferent : Prop :=
  ∀ (x y : RegIx) (s : State),
    decodeWord (wordR 0x9 x y 0x0) = .ok (.sneReg x y) ∧
    (s.regs[x.val] ≠ s.regs[y.val] → s.pc.toNat + 4 ≤ 0xFFF →
      exec (.sneReg x y) s = .next { s with pc := s.pc + 4 }) ∧
    (s.regs[x.val] = s.regs[y.val] → s.pc.toNat + 2 ≤ 0xFFF →
      exec (.sneReg x y) s = .next { s with pc := s.pc + 2 }) ∧
    (s.regs[x.val] ≠ s.regs[y.val] → 0xFFF < s.pc.toNat + 4 →
      exec (.sneReg x y) s = .next (s.haltedBy 4 (wordR 0x9 x y 0x0))) ∧
    (s.regs[x.val] = s.regs[y.val] → 0xFFF < s.pc.toNat + 2 →
      exec (.sneReg x y) s = .next (s.haltedBy 4 (wordR 0x9 x y 0x0)))

/-- R140. `LD I, NNN`. -/
def Obligations.LdISetsIndex : Prop :=
  ∀ (nnn : Addr) (s : State),
    decodeWord (wordA 0xA nnn) = .ok (.ldI nnn) ∧
    (s.pc.toNat + 2 ≤ 0xFFF → exec (.ldI nnn) s = .next { s with index := nnn, pc := s.pc + 2 }) ∧
    (0xFFF < s.pc.toNat + 2 → exec (.ldI nnn) s = .next (s.haltedBy 4 (wordA 0xA nnn)))

/-- R101. `JP V0, NNN` jumps to the sum, not wrapped; above 0xFFF it faults. Always `x[0]`. -/
def Obligations.JpV0AddsRegisterZero : Prop :=
  ∀ (nnn : Addr) (s : State),
    decodeWord (wordA 0xB nnn) = .ok (.jpV0 nnn) ∧
    (nnn.toNat + s.regs[0].toNat ≤ 0xFFF →
      exec (.jpV0 nnn) s = .next { s with pc := BitVec.ofNat 12 (nnn.toNat + s.regs[0].toNat) }) ∧
    (0xFFF < nnn.toNat + s.regs[0].toNat → exec (.jpV0 nnn) s = .next (s.haltedBy 4 (wordA 0xB nnn)))

/-- 42_alu.md, `RND Vx, NN`: whatever byte `b` is drawn, the register takes `b` and `NN`; the byte drawn is this
step's free input, about which nothing is known (log entry 2: where the byte comes from is the model's choice). -/
def Obligations.RndMasksTheDrawnByte : Prop :=
  ∀ (x : RegIx) (nn : Byte) (s : State),
    decodeWord (wordI 0xC x nn) = .ok (.rnd x nn) ∧
    (∀ b : Byte, s.pc.toNat + 2 ≤ 0xFFF →
      rndWith b x nn s = .next { s with regs := s.regs.set x.val (b &&& nn), pc := s.pc + 2 }) ∧
    (s.pc.toNat + 2 ≤ 0xFFF →
      exec (.rnd x nn) s =
        .next { s with regs := s.regs.set x.val (Config.rndInput s.inputs &&& nn), pc := s.pc + 2 }) ∧
    (0xFFF < s.pc.toNat + 2 → exec (.rnd x nn) s = .next (s.haltedBy 4 (wordI 0xC x nn)))

/-- R161. `DRW Vx, Vy, N`: every cell of the grid is its old value exclusive-or the sprite bit that targets it, the
flag is 1 exactly when a sprite bit 1 met a cell 1, coordinates read before the flag is written; nothing else
changes. Sprite bytes beyond Memory, targeted cells outside the grid and the advance bound fault with nothing
drawn (where a cell lies outside: decision D18 of the spec). With `N = 0` no cell is targeted. -/
def Obligations.DrwCombinesByExclusiveOr : Prop :=
  ∀ (x y : RegIx) (n : Nat) (s : State), n < 16 →
    decodeWord (wordR 0xD x y (BitVec.ofNat 4 n)) = .ok (.drw x y n) ∧
    (s.pc.toNat + 2 ≤ 0xFFF →
      (n = 0 ∨ (s.index.toNat + n - 1 ≤ 0xFFF ∧ s.regs[x.val].toNat + 7 ≤ 63 ∧
        s.regs[y.val].toNat + n - 1 ≤ 31)) →
      ∃ t, exec (.drw x y n) s = .next t ∧
        (∀ row col : Nat, row < 32 → col < 64 →
          t.fb.cell row col =
            (s.fb.cell row col ^^
              (decide (s.regs[y.val].toNat ≤ row ∧ row < s.regs[y.val].toNat + n ∧
                  s.regs[x.val].toNat ≤ col ∧ col < s.regs[x.val].toNat + 8) &&
                (s.readByte (s.index.toNat + (row - s.regs[y.val].toNat))).getLsbD
                  (7 - (col - s.regs[x.val].toNat))))) ∧
        (t.regs[15] = 1 ∨ t.regs[15] = 0) ∧
        (t.regs[15] = 1 ↔
          ∃ i j : Nat, i < n ∧ j < 8 ∧ (s.readByte (s.index.toNat + i)).getLsbD (7 - j) = true ∧
            s.fb.cell (s.regs[y.val].toNat + i) (s.regs[x.val].toNat + j) = true) ∧
        t = { s with fb := t.fb, regs := s.regs.set 15 t.regs[15], pc := s.pc + 2 }) ∧
    (0 < n → (0xFFF < s.index.toNat + n - 1 ∨ 63 < s.regs[x.val].toNat + 7 ∨ 31 < s.regs[y.val].toNat + n - 1) →
      exec (.drw x y n) s = .next (s.haltedBy 4 (wordR 0xD x y (BitVec.ofNat 4 n)))) ∧
    (0xFFF < s.pc.toNat + 2 →
      exec (.drw x y n) s = .next (s.haltedBy 4 (wordR 0xD x y (BitVec.ofNat 4 n)))) ∧
    (s.nextInstr = some (.drw x y n) → ∀ u, step s = .next u → u.halt = false →
      (stepOutputs s u).redraw = true)

/-- R180. `LD Vx, DT` reads the timer as it stood before this step's timer check, which comes after. -/
def Obligations.LdFromDtReadsTimer : Prop :=
  ∀ (x : RegIx) (s : State),
    decodeWord (wordF x 0x07) = .ok (.ldFromDt x) ∧
    (s.pc.toNat + 2 ≤ 0xFFF →
      exec (.ldFromDt x) s = .next { s with regs := s.regs.set x.val s.dt, pc := s.pc + 2 }) ∧
    (0xFFF < s.pc.toNat + 2 → exec (.ldFromDt x) s = .next (s.haltedBy 4 (wordF x 0x07))) ∧
    (∀ u fires now, exec (.ldFromDt x) s = .next u → s.pc.toNat + 2 ≤ 0xFFF →
      (u.timerCheck fires now).regs[x.val] = s.dt ∧
      (u.timerCheck fires now).dt.toNat = s.dt.toNat - if fires then 1 else 0)

/-- R181. `LD DT, Vx` sets the timer and not the gate's reference; the timer check of the same step may already
decrement the new value. -/
def Obligations.LdDtSetsTimer : Prop :=
  ∀ (x : RegIx) (s : State),
    decodeWord (wordF x 0x15) = .ok (.ldDt x) ∧
    (s.pc.toNat + 2 ≤ 0xFFF →
      exec (.ldDt x) s = .next { s with dt := s.regs[x.val], pc := s.pc + 2 }) ∧
    (0xFFF < s.pc.toNat + 2 → exec (.ldDt x) s = .next (s.haltedBy 4 (wordF x 0x15))) ∧
    (∀ u fires now, exec (.ldDt x) s = .next u → s.pc.toNat + 2 ≤ 0xFFF →
      u.tref = s.tref ∧
      (u.timerCheck fires now).dt.toNat = s.regs[x.val].toNat - if fires then 1 else 0)

/-- 43_index_memory.md, `ADD I, Vx`: no flag; a sum above 0xFFF faults (decision D2 of the spec). -/
def Obligations.AddIAddsOrFaults : Prop :=
  ∀ (x : RegIx) (s : State),
    decodeWord (wordF x 0x1E) = .ok (.addI x) ∧
    (s.pc.toNat + 2 ≤ 0xFFF → s.index.toNat + s.regs[x.val].toNat ≤ 0xFFF →
      exec (.addI x) s =
        .next { s with index := BitVec.ofNat 12 (s.index.toNat + s.regs[x.val].toNat), pc := s.pc + 2 }) ∧
    (0xFFF < s.index.toNat + s.regs[x.val].toNat → exec (.addI x) s = .next (s.haltedBy 4 (wordF x 0x1E))) ∧
    (0xFFF < s.pc.toNat + 2 → exec (.addI x) s = .next (s.haltedBy 4 (wordF x 0x1E)))

/-- R142. `LD F, Vx` points `I` at the glyph of the low 4 bits; the high 4 are ignored. -/
def Obligations.LdFPointsAtGlyph : Prop :=
  ∀ (x : RegIx) (s : State),
    decodeWord (wordF x 0x29) = .ok (.ldF x) ∧
    (s.pc.toNat + 2 ≤ 0xFFF →
      exec (.ldF x) s =
        .next { s with index := BitVec.ofNat 12 (5 * (s.regs[x.val].toNat % 16)), pc := s.pc + 2 }) ∧
    (0xFFF < s.pc.toNat + 2 → exec (.ldF x) s = .next (s.haltedBy 4 (wordF x 0x29)))

/-- R143. `LD B, Vx` stores hundreds, tens and ones at `I`, `I + 1`, `I + 2`; every other byte, `I` and every
register keep their values. A range above 0xFFF or in the glyph table faults with nothing stored. The premise is
the canonical form of Memory, the model's own (log entry 11), which every step keeps (StepKeepsInvariant). -/
def Obligations.LdBStoresDecimalDigits : Prop :=
  ∀ (x : RegIx) (s : State), s.mem.wf = true →
    decodeWord (wordF x 0x33) = .ok (.ldB x) ∧
    (s.pc.toNat + 2 ≤ 0xFFF → s.index.toNat + 2 ≤ 0xFFF → 0x04F < s.index.toNat →
      ∃ t, exec (.ldB x) s = .next t ∧
        (t.readByte s.index.toNat).toNat = s.regs[x.val].toNat / 100 ∧
        (t.readByte (s.index.toNat + 1)).toNat = s.regs[x.val].toNat / 10 % 10 ∧
        (t.readByte (s.index.toNat + 2)).toNat = s.regs[x.val].toNat % 10 ∧
        (∀ a : Nat, a < s.index.toNat ∨ s.index.toNat + 3 ≤ a → t.readByte a = s.readByte a) ∧
        t = { s with mem := t.mem, pc := s.pc + 2 }) ∧
    (0xFFF < s.index.toNat + 2 ∨ s.index.toNat ≤ 0x04F →
      exec (.ldB x) s = .next (s.haltedBy 4 (wordF x 0x33))) ∧
    (0xFFF < s.pc.toNat + 2 → exec (.ldB x) s = .next (s.haltedBy 4 (wordF x 0x33)))

/-- R144. `LD [I], Vx` stores `x[0]` to `x[X]` at `I` to `I + X`; every other byte, `I` and every register keep
their values. A range above 0xFFF or in the glyph table faults with nothing stored. The premise is the canonical
form of Memory, the model's own (log entry 11), which every step keeps (StepKeepsInvariant). -/
def Obligations.StoreRegsStoresRegisters : Prop :=
  ∀ (x : RegIx) (s : State), s.mem.wf = true →
    decodeWord (wordF x 0x55) = .ok (.storeRegs x) ∧
    (s.pc.toNat + 2 ≤ 0xFFF → s.index.toNat + x.val ≤ 0xFFF → 0x04F < s.index.toNat →
      ∃ t, exec (.storeRegs x) s = .next t ∧
        (∀ k : RegIx, k ≤ x → t.readByte (s.index.toNat + k.val) = s.regs[k.val]) ∧
        (∀ a : Nat, a < s.index.toNat ∨ s.index.toNat + x.val < a → t.readByte a = s.readByte a) ∧
        t = { s with mem := t.mem, pc := s.pc + 2 }) ∧
    (0xFFF < s.index.toNat + x.val ∨ s.index.toNat ≤ 0x04F →
      exec (.storeRegs x) s = .next (s.haltedBy 4 (wordF x 0x55))) ∧
    (0xFFF < s.pc.toNat + 2 → exec (.storeRegs x) s = .next (s.haltedBy 4 (wordF x 0x55)))

/-- R145. `LD Vx, [I]` loads `x[0]` to `x[X]` from `I` to `I + X`, the glyph table included; registers above `X`
and everything else keep their values. A range above 0xFFF faults with no register written. -/
def Obligations.LoadRegsLoadsRegisters : Prop :=
  ∀ (x : RegIx) (s : State),
    decodeWord (wordF x 0x65) = .ok (.loadRegs x) ∧
    (s.pc.toNat + 2 ≤ 0xFFF → s.index.toNat + x.val ≤ 0xFFF →
      ∃ t, exec (.loadRegs x) s = .next t ∧
        (∀ k : RegIx, t.regs[k.val] = if k ≤ x then s.readByte (s.index.toNat + k.val) else s.regs[k.val]) ∧
        t = { s with regs := t.regs, pc := s.pc + 2 }) ∧
    (0xFFF < s.index.toNat + x.val → exec (.loadRegs x) s = .next (s.haltedBy 4 (wordF x 0x65))) ∧
    (0xFFF < s.pc.toNat + 2 → exec (.loadRegs x) s = .next (s.haltedBy 4 (wordF x 0x65)))

/-! The encoding. -/

/-- Decode of encode is the instruction, for every well-formed instruction, whatever bytes follow (R60, R65). -/
def Obligations.DecodeOfEncodeIsTheInstruction : Prop :=
  ∀ (i : Instr) (rest : List Byte), i.wellFormed = true → decode (encode i ++ rest) = .ok (i, rest)

/-- Every word the decoder takes is the word of a well-formed instruction: no bit of it is dropped (R65). -/
def Obligations.EncodeOfDecodedWordIsTheWord : Prop :=
  ∀ (w : Word) (i : Instr), decodeWord w = .ok i → i.wellFormed = true ∧ encodeWord i = w

/-- The decoder follows the table as mask and match: a decoded word is covered by exactly one of the 26 rows, its
instruction's, and a word is unsupported exactly when no row covers it (R65, R66, R67). -/
def Obligations.DecodeSelectsTheOneMatchingRow : Prop :=
  ∀ w : Word,
    (∀ i, decodeWord w = .ok i → ∀ r ∈ opcodeRows, r.covers w = true ↔ r = i.row) ∧
    (decodeWord w = .error (.unsupported w) ↔ ∀ r ∈ opcodeRows, r.covers w = false)

/-- The unsupported space by leading nibble (30_encoding.md, the table of the unsupported space; the strict reading
is decision D7 of the spec). -/
def Obligations.UnsupportedSpaceByLeadingNibble : Prop :=
  ∀ n0 n1 n2 n3 : Nibble,
    decodeWord (n0 ++ n1 ++ n2 ++ n3) = .error (.unsupported (n0 ++ n1 ++ n2 ++ n3)) ↔
      (n0 = 0x0 ∧ ¬ (n1 = 0x0 ∧ n2 = 0xE ∧ (n3 = 0x0 ∨ n3 = 0xE))) ∨
      (n0 = 0x5 ∧ n3 ≠ 0x0) ∨
      (n0 = 0x8 ∧ n3 ≠ 0x0 ∧ n3 ≠ 0x1 ∧ n3 ≠ 0x2 ∧ n3 ≠ 0x4 ∧ n3 ≠ 0x5) ∨
      (n0 = 0x9 ∧ n3 ≠ 0x0) ∨
      n0 = 0xE ∨
      (n0 = 0xF ∧ n2 ++ n3 ≠ 0x07#8 ∧ n2 ++ n3 ≠ 0x15#8 ∧ n2 ++ n3 ≠ 0x1E#8 ∧ n2 ++ n3 ≠ 0x29#8 ∧
        n2 ++ n3 ≠ 0x33#8 ∧ n2 ++ n3 ≠ 0x55#8 ∧ n2 ++ n3 ≠ 0x65#8)

/-- A few words of the spec's worked examples, one a family, decode to what they stand for (R65, 95_test_vectors.md):
a sanity statement. -/
def Obligations.SampleWordsDecodeRight : Prop :=
  decode [0x13, 0x5F] = .ok (.jp 0x35F, []) ∧ decode [0x00, 0xEE] = .ok (.ret, []) ∧
  decode [0x33, 0x2A] = .ok (.seImm 3 0x2A, []) ∧ decode [0x81, 0x25] = .ok (.subReg 1 2, []) ∧
  decode [0xF2, 0x55] = .ok (.storeRegs 2, []) ∧ decode [0xF2, 0x65] = .ok (.loadRegs 2, []) ∧
  decode [0xD0, 0x12] = .ok (.drw 0 1 2, []) ∧ decode [0xF5, 0x07] = .ok (.ldFromDt 5, []) ∧
  decode [0x81, 0x26] = .error (.unsupported 0x8126)

/-! The step. -/

/-- A step of a running machine whose two bytes at `pc` decode to `i` is `exec i`, followed, when that did not fault,
by the timer check with this step's free verdict and time and by the move to the next free inputs (R82; the free
inputs are the model's, log entries 2 to 4). -/
def Obligations.StepRunsTheDecodedInstruction : Prop :=
  ∀ (s t : State) (i : Instr), s.halt = false → s.pc.toNat + 1 ≤ 0xFFF →
    decode [s.readByte s.pc.toNat, s.readByte (s.pc.toNat + 1)] = .ok (i, []) → exec i s = .next t →
    (t.halt = true → step s = .next t) ∧
    (t.halt = false →
      step s = .next
        { t with
          dt := if Config.tickInput t.inputs = true ∧ t.dt ≠ 0 then t.dt - 1 else t.dt
          st := if Config.tickInput t.inputs = true ∧ t.st ≠ 0 then t.st - 1 else t.st
          tref := if Config.tickInput t.inputs = true then Config.nowInput t.inputs else t.tref
          inputs := t.inputs + 1 })

/-- The fetch reads the two bytes at `pc`, the first more significant; at 0xFFF it faults with the word 0x0000
recorded (40_step_cycle.md section 2; decisions D3 and D14 of the spec). -/
def Obligations.FetchReadsTwoBytesOrFaults : Prop :=
  ∀ s : State,
    (s.pc ≠ 0xFFF → s.fetch = .ok (s.readByte s.pc.toNat ++ s.readByte (s.pc.toNat + 1))) ∧
    (s.pc = 0xFFF → s.halt = false → step s = .next (s.haltedBy 4 0x0000))

/-- R84. A fetched word that matches no row of the table raises UnsupportedOpcode (code 1) with that word and its
address, and nothing is read or written: whatever the rest of the state is, only the fault status changes. -/
def Obligations.UnsupportedWordHalts : Prop :=
  ∀ (s : State) (w : Word), s.halt = false → s.fetch = .ok w → (∀ r ∈ opcodeRows, r.covers w = false) →
    step s = .next (s.haltedBy 1 w)

/-- A step on a halted machine does nothing, reports `status = 1` and no `redraw`, and of the host's operations only
construct and load clear `HALT` (40_step_cycle.md section 2; decisions D12 and D27 of the spec). -/
def Obligations.HaltedMachineDoesNothing : Prop :=
  ∀ s : State, s.halt = true →
    step s = .next s ∧ (stepOutputs s s).status = true ∧ (stepOutputs s s).redraw = false ∧
    (∀ (op : HostOp) (t : State), hostOp op s = .next t → t.halt = false →
      (∃ g now, op = .construct g now) ∨ ∃ now prog, op = .load now prog)

/-- Every state has a step: no step of the machine ends in a model fault or a refusal (93_implementation_defined.md:
"every state has a step"). -/
def Obligations.EveryStateHasAStep : Prop := ∀ s : State, ∃ t, step s = .next t

/-- Faults are precise: a step that leaves a running machine halted changed nothing but the fault status, recorded
one of the four codes, the word fetched (0x0000 where none was) and the address of the instruction, and reports
`status = 1`, `redraw = 0` (60_exceptions.md section 1; decisions D10, D11 and D23 of the spec). -/
def Obligations.FaultsArePrecise : Prop :=
  ∀ s t : State, s.halt = false → step s = .next t → t.halt = true →
    ∃ (code : BitVec 3) (w : Word), t = s.haltedBy code w ∧
      (code = 1 ∨ code = 2 ∨ code = 3 ∨ code = 4) ∧
      (∀ f, s.fetch = .ok f → w = f) ∧ (∀ k, s.fetch = .error k → w = 0x0000) ∧
      (stepOutputs s t).status = true ∧ (stepOutputs s t).redraw = false

/-- `State.Inv` is kept by every step, from every state that meets it. Its clauses on the stack cells (an inference the
spec marks as its own), `ST` and the clear fault status are 10_state.md section 11; that a halted machine reports one of the four kinds is the table of codes in
60_exceptions.md section 1 (decision D10 of the spec); that Memory is in its canonical form is no rule of the spec but
the model's own representation (log entry 11, DESIGN CHOICE). -/
def Obligations.StepKeepsInvariant : Prop := ∀ s t : State, s.Inv → step s = .next t → t.Inv

/-- `State.Inv` holds right after reset. Its clauses come from where StepKeepsInvariant says: 10_state.md section 11;
60_exceptions.md section 1 (decision D10 of the spec) for the four kinds; the model's own representation for the
canonical form of Memory (log entry 11, DESIGN CHOICE). -/
def Obligations.ResetMeetsInvariant : Prop := State.reset.Inv

/-- `State.Inv` holds after every operation of the host, load of any program and construction with any glyph table
included. Its clauses come from where StepKeepsInvariant says: 10_state.md section 11; 60_exceptions.md section 1
(decision D10 of the spec) for the four kinds; the model's own representation for the canonical form of Memory (log
entry 11, DESIGN CHOICE). -/
def Obligations.HostOperationsKeepInvariant : Prop :=
  ∀ (op : HostOp) (s t : State), s.Inv → hostOp op s = .next t → t.Inv

/-- Memory 0x000 to 0x04F is the glyph table of construction, through every later operation of the host: any load and
any step, whatever it executes (70_reset_and_hazards.md section 1; decision D8 of the spec). -/
def Obligations.GlyphTableNeverChanges : Prop :=
  (∀ (g : Vector Byte Config.glyphBytes) (now k a : Nat) (h : a < Config.glyphBytes),
    (State.construct g now k).readByte a = g[a]) ∧
  ∀ (op : HostOp) (s t : State) (a : Nat), (∀ g now, op ≠ .construct g now) → hostOp op s = .next t →
    a < Config.glyphBytes → t.readByte a = s.readByte a

/-- R217. When the gate fires each timer goes down by 1 and stays at 0; when it does not, neither changes; a step lets
no timer go up but by `LD DT, Vx`. -/
def Obligations.TimersCountDownToZero : Prop :=
  (∀ (s : State) (now : Nat),
    (s.timerCheck true now).dt.toNat = s.dt.toNat - 1 ∧ (s.timerCheck true now).st.toNat = s.st.toNat - 1 ∧
    (s.timerCheck false now).dt = s.dt ∧ (s.timerCheck false now).st = s.st) ∧
  (∀ s t : State, step s = .next t →
    t.st.toNat ≤ s.st.toNat ∧ s.st.toNat ≤ t.st.toNat + 1 ∧
    ((∀ x, s.nextInstr ≠ some (.ldDt x)) → t.dt.toNat ≤ s.dt.toNat ∧ s.dt.toNat ≤ t.dt.toNat + 1))

/-- The timer check of a completed step: with this step's free verdict it counts both timers down, floor 0, and moves
`TREF` to the time of the check, or does neither; and with the verdict of the clock (at least 1/60 of a second since
`TREF`) `TREF` moves and the timers count down exactly when that time has gone by (40_step_cycle.md section 2,
60_exceptions.md section 3; decision D22 of the spec, log entries 3 and 4). -/
def Obligations.GateKeepsItsReference : Prop :=
  (∀ s t : State, Completes s t →
    t.tref = (if Config.tickInput s.inputs then Config.nowInput s.inputs else s.tref) ∧
    t.st.toNat = s.st.toNat - (if Config.tickInput s.inputs then 1 else 0) ∧
    ((∀ x, s.nextInstr ≠ some (.ldDt x)) →
      t.dt.toNat = s.dt.toNat - (if Config.tickInput s.inputs then 1 else 0))) ∧
  ∀ (s : State) (now : Nat),
    (s.tref + Config.sixtieth ≤ now →
      (s.timerCheck (gateVerdict now s.tref) now).tref = now ∧
      (s.timerCheck (gateVerdict now s.tref) now).dt.toNat = s.dt.toNat - 1 ∧
      (s.timerCheck (gateVerdict now s.tref) now).st.toNat = s.st.toNat - 1) ∧
    (now < s.tref + Config.sixtieth → s.timerCheck (gateVerdict now s.tref) now = s)

/-! Frames and whole-machine rules, over every instruction. -/

/-- FRAME, registers, of all 26 instructions: a register that is no destination of the instruction keeps its value,
whether the instruction completes or faults (R11, R13). -/
def Obligations.RegistersFrame : Prop :=
  ∀ (i : Instr) (s t : State) (k : RegIx), exec i s = .next t → writesReg i k = false →
    t.regs[k.val] = s.regs[k.val]

/-- FRAME, Memory, of all 26 instructions: every byte outside the bytes stored from address `I` up keeps its value;
only `LD B` and `LD [I]` store any (R50). -/
def Obligations.MemoryFrame : Prop :=
  ∀ (i : Instr) (s t : State) (a : Nat), exec i s = .next t →
    (a < s.index.toNat ∨ s.index.toNat + storedBytes i ≤ a) → t.readByte a = s.readByte a

/-- FRAME, the other state, of all 26 instructions: `I` changes only by `LD I`, `ADD I`, `LD F`; the stack and `SP` only
by `CALL` and `RET` (and `RET` changes no cell); the framebuffer only by `CLS` and `DRW`; `DT` only by `LD DT`;
`ST`, `KEYS`, `TREF`, the glyph table and the input position never; the fault status only by a fault, which leaves
the rest as it was (R14, R19, R21, R22, R23, R25). -/
def Obligations.SpecialStateFrame : Prop :=
  ∀ (i : Instr) (s t : State), exec i s = .next t →
    ((∀ nnn, i ≠ .ldI nnn) → (∀ x, i ≠ .addI x) → (∀ x, i ≠ .ldF x) → t.index = s.index) ∧
    ((∀ nnn, i ≠ .call nnn) → t.stack = s.stack) ∧
    ((∀ nnn, i ≠ .call nnn) → i ≠ .ret → t.sp = s.sp) ∧
    (i ≠ .cls → (∀ x y n, i ≠ .drw x y n) → t.fb = s.fb) ∧
    ((∀ x, i ≠ .ldDt x) → t.dt = s.dt) ∧
    t.st = s.st ∧ t.keys = s.keys ∧ t.tref = s.tref ∧ t.glyphs = s.glyphs ∧ t.inputs = s.inputs ∧
    ((t.halt = s.halt ∧ t.fkind = s.fkind ∧ t.finsn = s.finsn ∧ t.faddr = s.faddr) ∨
      ∃ k : Fault, t = s.haltedBy k.code (encodeWord i))

/-- The complete list of how `pc` moves, for every instruction that completes (10_state.md section 4; that it never
wraps is decision D2 of the spec). -/
def Obligations.PcMovesAsListed : Prop :=
  ∀ (i : Instr) (s t : State), s.halt = false → exec i s = .next t → t.halt = false → t.pc.toNat = nextPc i s

/-- A skip never looks at the bytes it passes over: with any other writable Memory that gives the same fetch, its step
does the same (41_control_flow.md, what a skip is). -/
def Obligations.SkipIgnoresTheSkippedBytes : Prop :=
  ∀ (s t : State) (m : Memory) (i : Instr),
    ((∃ x nn, i = .seImm x nn ∨ i = .sneImm x nn) ∨ ∃ x y, i = .seReg x y ∨ i = .sneReg x y) →
    s.nextInstr = some i → State.fetch { s with mem := m } = s.fetch → step s = .next t →
    step { s with mem := m } = .next { t with mem := m }

/-- A subroutine call and its return: after `CALL`, a `RET` executed with the stack as the call left it goes 2 past the
call and restores `SP` (R102, R103). -/
def Obligations.CallThenReturnComesBack : Prop :=
  ∀ (nnn : Addr) (s t : State), s.sp ≠ 32 → s.pc.toNat + 2 ≤ 0xFFF → exec (.call nnn) s = .next t →
    ∀ u : State, u.sp = t.sp → u.stack = t.stack →
      exec .ret u = .next { u with sp := s.sp, pc := s.pc + 2 }

/-- A block store followed by a block load from the same Memory and the same `I` gives the stored registers back, and
leaves the registers above `X` alone (R144, R145). The premise on Memory is its canonical form, the model's own (log
entry 11). -/
def Obligations.StoreThenLoadGivesTheRegisters : Prop :=
  ∀ (x : RegIx) (s t : State), s.mem.wf = true → s.halt = false → exec (.storeRegs x) s = .next t → t.halt = false →
    ∀ u : State, u.mem = t.mem → u.glyphs = t.glyphs → u.index = s.index → u.pc.toNat + 2 ≤ 0xFFF →
      ∃ v, exec (.loadRegs x) u = .next v ∧
        (∀ k : RegIx, v.regs[k.val] = if k ≤ x then s.regs[k.val] else u.regs[k.val])

/-- A store is seen by the fetch of the very next step: a block store over the two bytes that follow it is what the next
step fetches (20_memory.md section 4, instruction-fetch coherence). The premise on Memory is its canonical form, the
model's own (log entry 11). -/
def Obligations.NextFetchSeesTheStore : Prop :=
  ∀ (x : RegIx) (s t : State), s.mem.wf = true → s.halt = false → 1 ≤ x.val → s.index.toNat = s.pc.toNat + 2 →
    s.nextInstr = some (.storeRegs x) → step s = .next t → t.halt = false →
    t.fetch = .ok (s.regs[0] ++ s.regs[1])

/-- Drawing the same sprite twice at the same place restores the framebuffer. The second draw reports a collision exactly
when some sprite bit 1 met a cell that was 0 before the first draw: so it does for any sprite with a bit 1 drawn on a
clear place (44_display.md, drawing twice; that a bit 1 on a cell that was 1 collides the first time and not the second
follows from the collision rule and is said otherwise in the spec's sentence, log entry 13). Neither coordinate register
is the flag register: the spec's own proviso. -/
def Obligations.DrawingTwiceRestores : Prop :=
  ∀ (x y : RegIx) (n : Nat) (s t : State), x ≠ flagReg → y ≠ flagReg → s.halt = false → s.pc.toNat + 4 ≤ 0xFFF →
    exec (.drw x y n) s = .next t → t.halt = false →
    ∃ u, exec (.drw x y n) t = .next u ∧ u.fb = s.fb ∧
      (u.regs[15] = 1 ∨ u.regs[15] = 0) ∧
      (u.regs[15] = 1 ↔
        ∃ i j : Nat, i < n ∧ j < 8 ∧ (s.readByte (s.index.toNat + i)).getLsbD (7 - j) = true ∧
          s.fb.cell (s.regs[y.val].toNat + i) (s.regs[x.val].toNat + j) = false)

/-! Reset, load and the host's other operations. -/

/-- Construction leaves every piece of state at its reset value, whatever the glyph table and the time (70_reset_and_hazards.md
section 1; `I`, the stack cells, the fault status and `KEYS` are decisions D21, D27 and D28 of the spec). -/
def Obligations.ConstructionResetsEverything : Prop :=
  ∀ (g : Vector Byte Config.glyphBytes) (now k : Nat),
    (∀ x : RegIx, (State.construct g now k).regs[x.val] = 0) ∧
    (∀ j : Fin 32, (State.construct g now k).stack[j.val] = 0) ∧
    (∀ a : Nat, (State.construct g now k).readByte a = if h : a < 80 then g[a] else 0) ∧
    (∀ c : Nat, (State.construct g now k).readCell c = false) ∧
    (State.construct g now k).index = 0 ∧ (State.construct g now k).pc = 0x200 ∧ (State.construct g now k).sp = 0 ∧
    (State.construct g now k).dt = 0 ∧ (State.construct g now k).st = 0 ∧ (State.construct g now k).keys = 0 ∧
    (State.construct g now k).faultStatus = ⟨false, 0, 0, 0⟩ ∧ (State.construct g now k).tref = now

/-- Load: everything but the glyph table and `KEYS` is reset and the program stands at 0x200 with zeros around it; a
program of more than 3584 bytes is not copied and leaves the machine halted with OutOfBoundsAccess
(70_reset_and_hazards.md section 1; decisions D26, D27, D28 and D33 of the spec). -/
def Obligations.LoadResetsAndCopies : Prop :=
  ∀ (s : State) (now : Nat) (prog : List Byte),
    (prog.length ≤ 3584 →
      (∀ (k : Nat) (h : k < prog.length), (s.load now prog).readByte (0x200 + k) = prog[k]) ∧
      (∀ a : Nat, 80 ≤ a → (a < 0x200 ∨ 0x200 + prog.length ≤ a) → (s.load now prog).readByte a = 0) ∧
      { s.load now prog with mem := [] } = { State.construct s.glyphs now s.inputs with keys := s.keys }) ∧
    (3584 < prog.length →
      s.load now prog =
        { State.construct s.glyphs now s.inputs with
          keys := s.keys, halt := true, fkind := 4, finsn := 0x0000, faddr := 0x200 })

/-- Stepping without a program: after construction, or a load of no bytes, the first step fetches 0x0000 at 0x200 and
halts with UnsupportedOpcode (70_reset_and_hazards.md section 1; decision D34 of the spec). -/
def Obligations.UnloadedMachineFaultsAtOnce : Prop :=
  (∀ (g : Vector Byte Config.glyphBytes) (now k : Nat),
    step (State.construct g now k) = .next ((State.construct g now k).haltedBy 1 0x0000)) ∧
  ∀ (s : State) (now : Nat), step (s.load now []) = .next ((s.load now []).haltedBy 1 0x0000)

/-- Key events set or clear their bit of `KEYS` and nothing else, and cannot influence a run: with any other key latch
a step does the same (70_reset_and_hazards.md section 2; decision D28 of the spec). -/
def Obligations.KeysNeverInfluenceARun : Prop :=
  (∀ (s : State) (k j : Fin 16),
    (s.keyDown k).keys.getLsbD j.val = (decide (j = k) || s.keys.getLsbD j.val) ∧
    (s.keyUp k).keys.getLsbD j.val = (!decide (j = k) && s.keys.getLsbD j.val) ∧
    { s.keyDown k with keys := s.keys } = s ∧ { s.keyUp k with keys := s.keys } = s) ∧
  ∀ (s t : State) (keys : BitVec 16), step s = .next t →
    step { s with keys := keys } = .next { t with keys := keys }

/-- The random byte is consumed only by `RND`: every other instruction does the same whichever inputs the step receives
(40_step_cycle.md section 2; decision D24 of the spec, log entry 2). -/
def Obligations.OnlyRndReadsTheRandomByte : Prop :=
  ∀ (i : Instr) (s t : State) (k : Nat), (∀ x nn, i ≠ .rnd x nn) → exec i s = .next t →
    exec i { s with inputs := k } = .next { t with inputs := k }

/-- `redraw` is raised by a completed step that executed `CLS` or `DRW` and by no other step; `status` is `HALT` after the
step (40_step_cycle.md section 2; decision D25 of the spec). -/
def Obligations.RedrawOnlyForClsAndDrw : Prop :=
  ∀ s t : State, step s = .next t →
    ((stepOutputs s t).status = t.halt) ∧
    ((stepOutputs s t).redraw = true ↔
      t.halt = false ∧ (s.nextInstr = some .cls ∨ ∃ x y n, s.nextInstr = some (.drw x y n)))

/-- A jump to its own address spins for ever: after any number of steps everything but `DT`, `ST`, `TREF` and the model's
input position is as it was (70_reset_and_hazards.md section 3; decision D32 of the spec). -/
def Obligations.JumpToItselfSpins : Prop :=
  ∀ (s : State) (n : Nat), s.nextInstr = some (.jp s.pc) →
    { s.after n with dt := s.dt, st := s.st, tref := s.tref, inputs := s.inputs } = s
end

