-- ==== Sys2Proof/Laws/Display.lean ====
section
/-! SUPPORT. The framebuffer's cells (20_memory.md R51): what is read after a cell is set. -/

namespace Sys2Proof.Machine

/-- Every cell of the clear framebuffer is 0. -/
@[simp] theorem Framebuffer.cell_clear (row col : Nat) : Framebuffer.clear.cell row col = false := by
  by_cases hr : row < 32 <;> by_cases hc : col < 64 <;>
    simp [Framebuffer.cell, Framebuffer.clear, Vector.getD, hr, hc]

/-- Setting a cell of the grid is read back there, and leaves every other cell alone. -/
theorem Framebuffer.cell_setCell (f : Framebuffer) {row col : Nat} (v : Bool) (hr : row < 32) (hc : col < 64)
    (row' col' : Nat) :
    (f.setCell row col v).cell row' col' = if row' = row ∧ col' = col then v else f.cell row' col' := by
  by_cases h : row' = row
  · subst h
    by_cases h' : col' = col
    · subst h'
      simp [Framebuffer.cell, Framebuffer.setCell, Vector.getD, hr, hc]
    · by_cases hc' : col' < 64
      · simp [Framebuffer.cell, Framebuffer.setCell, Vector.getD, hr, h', hc', Ne.symm h']
      · simp [Framebuffer.cell, Framebuffer.setCell, Vector.getD, hr, h', hc']
  · by_cases hr' : row' < 32
    · simp [Framebuffer.cell, Framebuffer.setCell, Vector.getD, h, hr', Ne.symm h]
    · simp [Framebuffer.cell, Framebuffer.setCell, Vector.getD, h, hr']

end Sys2Proof.Machine
end

