-- ==== Sys2Proof/Laws/Memory.lean ====
section
/-! SUPPORT. The writable Memory (20_memory.md R40, R49): what is read after a write, and that every
operation keeps the canonical form. -/

namespace Sys2Proof.Machine

/-- A write leaves every other address alone. -/
theorem Memory.read_write_other (m : Memory) {a b : Nat} (v : Byte) (h : b ≠ a) :
    (Memory.write m a v).read b = m.read b := by
  induction m with
  | nil => simp only [Memory.write]; split_ifs <;> simp [Memory.read, h]
  | cons c rest ih =>
    obtain ⟨d, w⟩ := c
    simp only [Memory.write]
    split_ifs with h1 h2 h3 h4 <;> simp_all [Memory.read]

/-- Below the lowest listed address everything reads as nothing listed. -/
theorem Memory.read_below {m : Memory} {lo a : Nat} (hm : Memory.wfFrom lo m = true) (h : a < lo) : m.read a = 0 := by
  induction m generalizing lo with
  | nil => rfl
  | cons c rest ih =>
    obtain ⟨d, w⟩ := c
    simp only [Memory.wfFrom, Bool.and_eq_true, decide_eq_true_eq] at hm
    have : a ≠ d := by omega
    simp only [Memory.read, this, if_false]
    exact ih hm.2 (by omega)

/-- In the canonical form, a read gives the value last written (R49). -/
theorem Memory.read_write_same {m : Memory} {lo : Nat} (a : Nat) (v : Byte) (hm : Memory.wfFrom lo m = true) :
    (Memory.write m a v).read a = v := by
  induction m generalizing lo with
  | nil => simp only [Memory.write]; split_ifs with hv <;> simp [Memory.read, hv]
  | cons c rest ih =>
    obtain ⟨d, w⟩ := c
    simp only [Memory.wfFrom, Bool.and_eq_true, decide_eq_true_eq] at hm
    simp only [Memory.write]
    split_ifs with h1 h2 h3 h4
    · have : a ≠ d := by omega
      simp [Memory.read, this, h2, Memory.read_below hm.2 (by omega : a < d + 1)]
    · simp [Memory.read]
    · subst h3
      simp [h4, Memory.read_below hm.2 (by omega : a < a + 1)]
    · simp [Memory.read]
    · simp [Memory.read, h3, ih hm.2]

/-- A write in range keeps the canonical form. -/
theorem Memory.wfFrom_write {m : Memory} {lo a : Nat} (v : Byte) (hm : Memory.wfFrom lo m = true) (h1 : lo ≤ a)
    (h2 : a ≤ Config.addrMax) : Memory.wfFrom lo (Memory.write m a v) = true := by
  induction m generalizing lo with
  | nil =>
    simp only [Memory.write]
    split_ifs with hv
    · rfl
    · simp only [Memory.wfFrom, Bool.and_eq_true, decide_eq_true_eq]
      exact ⟨⟨⟨h1, h2⟩, hv⟩, trivial⟩
  | cons c rest ih =>
    obtain ⟨d, w⟩ := c
    simp only [Memory.wfFrom, Bool.and_eq_true, decide_eq_true_eq] at hm
    simp only [Memory.write]
    split_ifs with h3 h4 h5 h6
    · simp only [Memory.wfFrom, Bool.and_eq_true, decide_eq_true_eq]
      exact hm
    · simp only [Memory.wfFrom, Bool.and_eq_true, decide_eq_true_eq]
      exact ⟨⟨⟨h1, h2⟩, h4⟩, ⟨⟨by omega, hm.1.1.2⟩, hm.1.2⟩, hm.2⟩
    · subst h5
      cases rest with
      | nil => rfl
      | cons e tail =>
        obtain ⟨f, u⟩ := e
        have := hm.2
        simp only [Memory.wfFrom, Bool.and_eq_true, decide_eq_true_eq] at this ⊢
        exact ⟨⟨⟨by omega, this.1.1.2⟩, this.1.2⟩, this.2⟩
    · simp only [Memory.wfFrom, Bool.and_eq_true, decide_eq_true_eq]
      subst h5
      exact ⟨⟨⟨h1, h2⟩, h6⟩, hm.2⟩
    · simp only [Memory.wfFrom, Bool.and_eq_true, decide_eq_true_eq]
      exact ⟨hm.1, ih hm.2 (by omega)⟩

/-- `Memory.wf` is kept by a write to the writable Memory (R41). -/
theorem Memory.wf_write {m : Memory} {a : Nat} (v : Byte) (hm : m.wf = true) (h1 : Config.glyphBytes ≤ a)
    (h2 : a ≤ Config.addrMax) : (Memory.write m a v).wf = true := Memory.wfFrom_write v hm h1 h2

/-- `Memory.wf` is kept by a sequence of writes to the writable Memory. -/
theorem Memory.wf_writeAll {m : Memory} {a : Nat} (bytes : List Byte) (hm : m.wf = true)
    (h1 : Config.glyphBytes ≤ a) (h2 : a + bytes.length ≤ Config.addrMax + 1) : (m.writeAll a bytes).wf = true := by
  induction bytes generalizing m a with
  | nil => exact hm
  | cons v rest ih =>
    simp only [List.length_cons] at h2
    exact ih (Memory.wf_write v hm h1 (by omega)) (by omega) (by omega)

/-- A sequence of writes leaves every address outside its range alone. -/
theorem Memory.read_writeAll_other (m : Memory) {a b : Nat} (bytes : List Byte)
    (h : b < a ∨ a + bytes.length ≤ b) : (m.writeAll a bytes).read b = m.read b := by
  induction bytes generalizing m a with
  | nil => rfl
  | cons v rest ih =>
    simp only [List.length_cons] at h
    rw [Memory.writeAll, ih _ (by omega), Memory.read_write_other _ _ (by omega)]

/-- In the canonical form, a sequence of writes is read back byte by byte (R48). -/
theorem Memory.read_writeAll {m : Memory} {a : Nat} (bytes : List Byte) (hm : m.wf = true)
    (h1 : Config.glyphBytes ≤ a) (h2 : a + bytes.length ≤ Config.addrMax + 1) {k : Nat} (hk : k < bytes.length) :
    (m.writeAll a bytes).read (a + k) = bytes[k] := by
  induction bytes generalizing m a k with
  | nil => simp at hk
  | cons v rest ih =>
    simp only [List.length_cons] at h2 hk
    rw [Memory.writeAll]
    cases k with
    | zero =>
      rw [Memory.read_writeAll_other _ _ (by omega)]
      simpa using Memory.read_write_same a v hm
    | succ k =>
      rw [show a + (k + 1) = a + 1 + k by omega, ih (Memory.wf_write v hm h1 (by omega)) (by omega) (by omega) (by omega)]
      rfl

/-- Nothing listed is in the canonical form. -/
@[simp] theorem Memory.wf_nil : Memory.wf [] = true := rfl

end Sys2Proof.Machine
end

