-- ==== Sys2Proof/Laws/Word.lean ====
section
/-! SUPPORT. The four nibbles of a word (30_encoding.md R62): taking a word apart and putting it together
again, and the fields a nibble becomes. -/

namespace Sys2Proof

/-- The nibbles of four nibbles put together are those nibbles. -/
@[simp] theorem nibbles_append (a b c d : Nibble) : nibbles (a ++ b ++ c ++ d) = (a, b, c, d) := by
  simp only [nibbles, Prod.mk.injEq]
  refine ⟨?_, ?_, ?_, ?_⟩ <;> apply BitVec.eq_of_getLsbD_eq <;> intro i hi <;>
    simp only [BitVec.getLsbD_extractLsb', BitVec.getLsbD_append] <;> interval_cases i <;> simp

/-- A word is its four nibbles put together. -/
theorem append_nibbles (w : Word) :
    (w.extractLsb' 12 4 ++ w.extractLsb' 8 4 ++ w.extractLsb' 4 4 ++ w.extractLsb' 0 4 : Word) = w := by
  apply BitVec.eq_of_getLsbD_eq
  intro i hi
  simp only [BitVec.getLsbD_append, BitVec.getLsbD_extractLsb']
  interval_cases i <;> simp

/-- An address is its three nibbles put together. -/
theorem addrField_nibbles (v : Addr) : addrField (v.extractLsb' 8 4) (v.extractLsb' 4 4) (v.extractLsb' 0 4) = v := by
  apply BitVec.eq_of_getLsbD_eq
  intro i hi
  simp only [addrField, BitVec.getLsbD_append, BitVec.getLsbD_extractLsb']
  interval_cases i <;> simp

/-- A byte is its two nibbles put together. -/
theorem immField_nibbles (v : Byte) : immField (v.extractLsb' 4 4) (v.extractLsb' 0 4) = v := by
  apply BitVec.eq_of_getLsbD_eq
  intro i hi
  simp only [immField, BitVec.getLsbD_append, BitVec.getLsbD_extractLsb']
  interval_cases i <;> simp

/-- The nibble of a register names that register (R64). -/
@[simp] theorem regField_regNibble (x : RegIx) : regField (regNibble x) = x := rfl

/-- The register of a nibble has that nibble. -/
@[simp] theorem regNibble_regField (n : Nibble) : regNibble (regField n) = n := rfl

/-- A format A word, as nibbles (R63). -/
theorem wordA_eq (op : Nibble) (nnn : Addr) :
    wordA op nnn = op ++ nnn.extractLsb' 8 4 ++ nnn.extractLsb' 4 4 ++ nnn.extractLsb' 0 4 := by
  apply BitVec.eq_of_getLsbD_eq
  intro i hi
  simp only [wordA, BitVec.getLsbD_append, BitVec.getLsbD_extractLsb']
  interval_cases i <;> simp

/-- A format I word, as nibbles (R63). -/
theorem wordI_eq (op : Nibble) (x : RegIx) (nn : Byte) :
    wordI op x nn = op ++ regNibble x ++ nn.extractLsb' 4 4 ++ nn.extractLsb' 0 4 := by
  apply BitVec.eq_of_getLsbD_eq
  intro i hi
  simp only [wordI, BitVec.getLsbD_append, BitVec.getLsbD_extractLsb']
  interval_cases i <;> simp

/-- A format F word, as nibbles (R63). -/
theorem wordF_eq (x : RegIx) (fn : Byte) :
    wordF x fn = 0xF#4 ++ regNibble x ++ fn.extractLsb' 4 4 ++ fn.extractLsb' 0 4 := wordI_eq 0xF x fn

/-- Decoding a word put together from four nibbles is matching the nibbles (R62). -/
theorem decodeWord_append (a b c d : Nibble) :
    decodeWord (a ++ b ++ c ++ d) =
      match decodeNibbles a b c d with
      | some i => .ok i
      | none => .error (.unsupported (a ++ b ++ c ++ d)) := by
  rw [decodeWord, nibbles_append] <;> rfl

/-- The nibbles of the address a format A word carries. -/
theorem wordA_addrField (op a b c : Nibble) : wordA op (addrField a b c) = op ++ a ++ b ++ c := by
  apply BitVec.eq_of_getLsbD_eq
  intro i hi
  simp only [wordA, addrField, BitVec.getLsbD_append]
  interval_cases i <;> simp

/-- The nibbles of the immediate a format I word carries. -/
theorem wordI_immField (op x a b : Nibble) : wordI op (regField x) (immField a b) = op ++ x ++ a ++ b := by
  apply BitVec.eq_of_getLsbD_eq
  intro i hi
  simp only [wordI, immField, regNibble_regField, BitVec.getLsbD_append]
  interval_cases i <;> simp

/-- The two bytes of a word put together are the word (R46, R61). -/
theorem wordOfBytes_bytes (w : Word) : wordOfBytes (w.extractLsb' 8 8) (w.extractLsb' 0 8) = w := by
  apply BitVec.eq_of_getLsbD_eq
  intro i hi
  simp only [wordOfBytes, BitVec.getLsbD_append, BitVec.getLsbD_extractLsb']
  interval_cases i <;> simp

end Sys2Proof
end

