-- ==== Sys2Proof/Laws/Ops.lean ====
section
/-! SUPPORT. What each shared operation of Machine/Ops.lean, Operands.lean and Flags.lean can do, said once,
so that no proof about an instruction unfolds them. -/

namespace Sys2Proof.Machine

/-! Registers. -/

/-- A register write is read back. -/
@[simp] theorem State.reg_setReg_same (s : State) (x : RegIx) (v : Byte) : (s.setReg x v).reg x = v := by
  simp [State.reg, State.setReg]

/-- A register write leaves every other register alone. -/
theorem State.reg_setReg_other (s : State) {x y : RegIx} (v : Byte) (h : y ≠ x) : (s.setReg x v).reg y = s.reg y := by
  simp only [State.reg, State.setReg]
  exact Vector.getElem_set_ne _ _ (fun e => h (Fin.ext e.symm))

/-- The registers after a block load: the bytes that reach, the old values above (R145). -/
theorem State.reg_setRegs (s : State) (bytes : List Byte) (k : RegIx) :
    (s.setRegs bytes).reg k = bytes.getD k.val (s.reg k) := by
  simp [State.reg, State.setRegs]

/-- The registers a block store writes out (R144). -/
theorem State.regsUpTo_length (s : State) (x : RegIx) : (s.regsUpTo x).length = x.val + 1 := by
  have := x.isLt
  simp [State.regsUpTo]

/-- Byte `k` of a block store is register `k`. -/
theorem State.regsUpTo_getElem (s : State) (x k : RegIx) (h : k.val < (s.regsUpTo x).length) :
    (s.regsUpTo x)[k.val] = s.reg k := by
  simp [State.regsUpTo, State.reg]

/-! Memory. -/

/-- What an address reads depends on the glyph table and the writable Memory alone. -/
theorem State.readByte_congr {s t : State} (hg : t.glyphs = s.glyphs) (hm : t.mem = s.mem) (a : Nat) :
    t.readByte a = s.readByte a := by
  simp [State.readByte, hg, hm]

/-- An address from 0x050 up reads the writable Memory. -/
theorem State.readByte_ram (s : State) {a : Nat} (h : Config.glyphBytes ≤ a) : s.readByte a = s.mem.read a := by
  simp [State.readByte, Nat.not_lt.mpr h]

/-- A checked read that answers read the bytes in order, inside Memory (R44). -/
theorem State.memRead_ok {s : State} {a n : Nat} {bytes : List Byte} (h : s.memRead a n = .ok bytes) :
    (n = 0 ∨ a + n ≤ Config.addrMax + 1) ∧ bytes = s.bytesAt a n := by
  simp only [State.memRead] at h
  split at h
  · exact ⟨‹_›, by simpa using h.symm⟩
  · cases h

/-- A checked read that raises is OutOfBoundsAccess, and only above 0xFFF (R44). -/
theorem State.memRead_error {s : State} {a n : Nat} {k : Fault} (h : s.memRead a n = .error k) :
    k = .outOfBoundsAccess ∧ n ≠ 0 ∧ Config.addrMax + 1 < a + n := by
  simp only [State.memRead] at h
  split at h
  · cases h
  · rename_i hn
    exact ⟨by simpa using h.symm, by omega, by omega⟩

/-- `bytesAt` has `n` bytes. -/
@[simp] theorem State.bytesAt_length (s : State) (a n : Nat) : (s.bytesAt a n).length = n := by simp [State.bytesAt]

/-- Byte `k` of `bytesAt a n` is the byte at `a + k`. -/
theorem State.bytesAt_getElem (s : State) (a n k : Nat) (h : k < (s.bytesAt a n).length) :
    (s.bytesAt a n)[k] = s.readByte (a + k) := by simp [State.bytesAt]

/-- A checked write that answers wrote the bytes in the writable Memory and nothing else (R44, R45). -/
theorem State.memWrite_ok {s t : State} {a : Nat} {bytes : List Byte} (h : s.memWrite a bytes = .ok t) :
    (bytes.length = 0 ∨ (a + bytes.length ≤ Config.addrMax + 1 ∧ Config.glyphBytes ≤ a)) ∧
      t = { s with mem := s.mem.writeAll a bytes } := by
  simp only [State.memWrite] at h
  split at h
  · exact ⟨‹_›, by simpa using h.symm⟩
  · cases h

/-- A checked write that raises is OutOfBoundsAccess, above 0xFFF or in the glyph table (R44, R45). -/
theorem State.memWrite_error {s : State} {a : Nat} {bytes : List Byte} {k : Fault} (h : s.memWrite a bytes = .error k) :
    k = .outOfBoundsAccess ∧ bytes.length ≠ 0 ∧ (Config.addrMax + 1 < a + bytes.length ∨ a < Config.glyphBytes) := by
  simp only [State.memWrite] at h
  split at h
  · cases h
  · rename_i hn
    exact ⟨by simpa using h.symm, by omega, by omega⟩

/-- A checked write keeps the canonical form of Memory. -/
theorem State.memWrite_wf {s t : State} {a : Nat} {bytes : List Byte} (h : s.memWrite a bytes = .ok t)
    (hs : s.mem.wf = true) : t.mem.wf = true := by
  obtain ⟨hb, rfl⟩ := State.memWrite_ok h
  rcases hb with h0 | ⟨h1, h2⟩
  · obtain rfl := List.length_eq_zero_iff.mp h0
    exact hs
  · exact Memory.wf_writeAll bytes hs h2 h1

/-- A checked write leaves every byte outside its range as it was. -/
theorem State.memWrite_read_other {s t : State} {a b : Nat} {bytes : List Byte} (h : s.memWrite a bytes = .ok t)
    (hb : b < a ∨ a + bytes.length ≤ b) : t.readByte b = s.readByte b := by
  obtain ⟨-, rfl⟩ := State.memWrite_ok h
  simp only [State.readByte]
  split
  · rfl
  · exact Memory.read_writeAll_other _ _ hb

/-- In the canonical form a checked write is read back byte by byte (R49). -/
theorem State.memWrite_read {s t : State} {a k : Nat} {bytes : List Byte} (h : s.memWrite a bytes = .ok t)
    (hs : s.mem.wf = true) (hk : k < bytes.length) : t.readByte (a + k) = bytes[k] := by
  obtain ⟨hb, rfl⟩ := State.memWrite_ok h
  rcases hb with h0 | ⟨h1, h2⟩
  · omega
  · rw [State.readByte_ram _ (by omega)]
    exact Memory.read_writeAll bytes hs h2 h1 hk

/-! The stack. -/

/-- A push that answers had room, and wrote one cell and `SP` (R102). -/
theorem State.push_ok {s t : State} {v : Addr} (h : s.push v = .ok t) :
    ∃ hs : s.sp.val < 32, t = { s with stack := s.stack.set s.sp.val v, sp := ⟨s.sp.val + 1, Nat.succ_lt_succ hs⟩ } := by
  simp only [State.push] at h
  split at h
  · exact ⟨‹_›, by simpa using h.symm⟩
  · cases h

/-- A push that raises found the stack full: StackOverflow (R203). -/
theorem State.push_error {s : State} {v : Addr} {k : Fault} (h : s.push v = .error k) :
    k = .stackOverflow ∧ s.sp.val = 32 := by
  have := s.sp.isLt
  simp only [State.push] at h
  split at h
  · cases h
  · exact ⟨by simpa using h.symm, by omega⟩

/-- A pop that answers found a cell in use, read it and lowered `SP`; the cell keeps its value (R19, R103). -/
theorem State.pop_ok {s t : State} {a : Addr} (h : s.pop = .ok (a, t)) :
    0 < s.sp.val ∧ s.stack[s.sp.val - 1]? = some a ∧ ∃ h, t = { s with sp := ⟨s.sp.val - 1, h⟩ } := by
  have := s.sp.isLt
  simp only [State.pop] at h
  split at h
  · cases h
  · simp only [Except.ok.injEq, Prod.mk.injEq] at h
    exact ⟨by omega, by simp [← h.1], by omega, h.2.symm⟩

/-- A pop that raises found no cell in use: StackUnderflow (R202). -/
theorem State.pop_error {s : State} {k : Fault} (h : s.pop = .error k) : k = .stackUnderflow ∧ s.sp.val = 0 := by
  simp only [State.pop] at h
  split at h
  · exact ⟨by simpa using h.symm, ‹_›⟩
  · cases h

/-! Raising and committing. -/

/-- The new `pc` as an address: 2 or 4 further, where that does not pass 0xFFF. -/
theorem pc_plus (p : Addr) (k : Nat) : BitVec.ofNat 12 (p.toNat + k) = p + BitVec.ofNat 12 k := by
  apply BitVec.eq_of_toNat_eq
  simp

/-- Everything a commit can do (R85, R87). -/
theorem commitPc_cases {i : Instr} {s t u : State} {v : Nat} (h : commitPc i s t v = .next u) :
    (v ≤ Config.addrMax ∧ u = t.setPc (BitVec.ofNat 12 v)) ∨
      (Config.addrMax < v ∧ u = s.enterFault .outOfBoundsAccess (encodeWord i)) := by
  simp only [commitPc, raise] at h
  split at h
  · exact .inl ⟨‹_›, by simpa using h.symm⟩
  · exact .inr ⟨by omega, by simpa using h.symm⟩

/-- A commit in bounds. -/
theorem commitPc_of_le {i : Instr} {s t : State} {v : Nat} (h : v ≤ Config.addrMax) :
    commitPc i s t v = .next (t.setPc (BitVec.ofNat 12 v)) := by simp only [commitPc, if_pos h]

/-- A commit out of bounds. -/
theorem commitPc_of_gt {i : Instr} {s t : State} {v : Nat} (h : Config.addrMax < v) :
    commitPc i s t v = .next (s.enterFault .outOfBoundsAccess (encodeWord i)) := by
  simp only [commitPc, raise, if_neg (Nat.not_le.mpr h)]

/-- A commit always answers a next state. -/
theorem commitPc_next (i : Instr) (s t : State) (v : Nat) : ∃ u, commitPc i s t v = .next u := by
  simp only [commitPc, raise]; split <;> exact ⟨_, rfl⟩

/-- The generic advance in bounds (R86). -/
theorem advance_of_le {i : Instr} {s t : State} (h : s.pc.toNat + 2 ≤ Config.addrMax) :
    advance i s t = .next (t.setPc (s.pc + 2)) := by
  rw [advance, commitPc_of_le h, pc_plus]; rfl

/-- The generic advance out of bounds (R87). -/
theorem advance_of_gt {i : Instr} {s t : State} (h : Config.addrMax < s.pc.toNat + 2) :
    advance i s t = .next (s.enterFault .outOfBoundsAccess (encodeWord i)) := by rw [advance, commitPc_of_gt h]

/-- Everything the generic advance can do. -/
theorem advance_cases {i : Instr} {s t u : State} (h : advance i s t = .next u) :
    (s.pc.toNat + 2 ≤ Config.addrMax ∧ u = t.setPc (s.pc + 2)) ∨
      (Config.addrMax < s.pc.toNat + 2 ∧ u = s.enterFault .outOfBoundsAccess (encodeWord i)) := by
  rcases commitPc_cases h with ⟨hv, rfl⟩ | ⟨hv, rfl⟩
  · exact .inl ⟨hv, by rw [pc_plus]; rfl⟩
  · exact .inr ⟨hv, rfl⟩

/-- Everything going on with a checked value can do. -/
theorem orRaise_cases {α : Type} {i : Instr} {s u : State} {e : Except Fault α} {f : α → Result}
    (h : orRaise i s e f = .next u) :
    (∃ v, e = .ok v ∧ f v = .next u) ∨ (∃ k, e = .error k ∧ u = s.enterFault k (encodeWord i)) := by
  cases e with
  | ok v => exact .inl ⟨v, rfl, h⟩
  | error k => exact .inr ⟨k, rfl, by simpa [orRaise, raise] using h.symm⟩

/-- A checked value goes on. -/
@[simp] theorem orRaise_ok {α : Type} (i : Instr) (s : State) (v : α) (f : α → Result) : orRaise i s (.ok v) f = f v := rfl

/-- A failed check takes its fault. -/
@[simp] theorem orRaise_error {α : Type} (i : Instr) (s : State) (k : Fault) (f : α → Result) :
    orRaise i s (.error k) f = .next (s.enterFault k (encodeWord i)) := rfl

/-- An address register takes what fits (R14). -/
theorem toAddr_cases (v : Nat) :
    (v ≤ Config.addrMax ∧ toAddr v = .ok (BitVec.ofNat 12 v)) ∨
      (Config.addrMax < v ∧ toAddr v = .error .outOfBoundsAccess) := by
  simp only [toAddr]
  split
  · exact .inl ⟨‹_›, rfl⟩
  · exact .inr ⟨by omega, rfl⟩

/-! The other phases of a step. -/

/-- The fetch (R83): everything it can do. -/
theorem State.fetch_cases (s : State) :
    (s.pc ≠ 0xFFF ∧ s.fetch = .ok (s.readByte s.pc.toNat ++ s.readByte (s.pc.toNat + 1))) ∨
      (s.pc = 0xFFF ∧ s.fetch = .error .outOfBoundsAccess) := by
  have hlt := s.pc.isLt
  simp only [State.fetch]
  split
  · rename_i h
    exact .inl ⟨fun e => by rw [e] at h; exact absurd h (by decide), rfl⟩
  · rename_i h
    refine .inr ⟨BitVec.eq_of_toNat_eq ?_, rfl⟩
    simp only [Config.addrMax] at h
    change s.pc.toNat = 4095
    omega

/-- A timer at 0 stays there (R217). -/
@[simp] theorem tickDown_zero (fires : Bool) : tickDown fires 0 = 0 := rfl

/-- A gate that does not fire changes no timer (R217). -/
@[simp] theorem tickDown_false (t : Byte) : tickDown false t = t := by
  simp only [tickDown, Bool.false_eq_true, if_false]
  split
  · exact (‹t = 0›).symm
  · rfl

/-- A firing takes 1 off a timer, floor 0 (R217). -/
theorem tickDown_true_toNat (t : Byte) : (tickDown true t).toNat = t.toNat - 1 := by
  have ht := t.isLt
  simp only [tickDown, if_true]
  split
  · subst_vars; rfl
  · rename_i h
    have : t.toNat ≠ 0 := fun e => h (BitVec.eq_of_toNat_eq e)
    have h1 : BitVec.toNat (1 : Byte) = 1 := rfl
    rw [BitVec.toNat_sub, h1]
    omega

/-- The end of a step: a faulted state is left alone, a completed one gets its timer check (R89). -/
theorem finishStep_next (t : State) :
    finishStep (.next t) =
      .next (if t.halt then t else (t.timerCheck (Config.tickInput t.inputs) (Config.nowInput t.inputs)).nextInputs) := by
  simp only [finishStep]; split <;> simp_all

end Sys2Proof.Machine
end

