-- ==== Sys2Proof/Laws/PerInstr.lean ====
section
/-! SUPPORT. Statements made per instruction. InRow: the word an instruction is encoded as belongs to its row
of the opcode table (30_encoding.md R65), and that row is one of the 26. -/

namespace Sys2Proof.Laws.InRow

/-- The word of the instruction has the row's literal bits (R65). -/
def Statement (i : Instr) : Prop := i.row ∈ opcodeRows ∧ i.row.covers (encodeWord i) = true

/-- Format A words keep their leading nibble. -/
theorem coversA (op : Nibble) (nnn : Addr) : OpcodeRow.covers ⟨op ++ 0#12, 0xF000⟩ (wordA op nnn) = true := by
  simp only [OpcodeRow.covers, beq_iff_eq, wordA]
  apply BitVec.eq_of_getLsbD_eq
  intro i hi
  simp only [BitVec.getLsbD_and, BitVec.getLsbD_append]
  interval_cases i <;> simp

/-- Format I words keep their leading nibble. -/
theorem coversI (op : Nibble) (x : RegIx) (nn : Byte) :
    OpcodeRow.covers ⟨op ++ 0#12, 0xF000⟩ (wordI op x nn) = true := by
  simp only [OpcodeRow.covers, beq_iff_eq, wordI]
  apply BitVec.eq_of_getLsbD_eq
  intro i hi
  simp only [BitVec.getLsbD_and, BitVec.getLsbD_append]
  interval_cases i <;> simp

/-- Format R words keep their first and last nibble. -/
theorem coversR (op : Nibble) (x y : RegIx) (n : Nibble) :
    OpcodeRow.covers ⟨op ++ 0#8 ++ n, 0xF00F⟩ (wordR op x y n) = true := by
  simp only [OpcodeRow.covers, beq_iff_eq, wordR]
  apply BitVec.eq_of_getLsbD_eq
  intro i hi
  simp only [BitVec.getLsbD_and, BitVec.getLsbD_append]
  interval_cases i <;> simp

/-- Format D words keep their leading nibble. -/
theorem coversD (op : Nibble) (x y : RegIx) (n : Nibble) :
    OpcodeRow.covers ⟨op ++ 0#12, 0xF000⟩ (wordR op x y n) = true := by
  simp only [OpcodeRow.covers, beq_iff_eq, wordR]
  apply BitVec.eq_of_getLsbD_eq
  intro i hi
  simp only [BitVec.getLsbD_and, BitVec.getLsbD_append]
  interval_cases i <;> simp

/-- Format F words keep their leading nibble and their second byte. -/
theorem coversF (x : RegIx) (fn : Byte) : OpcodeRow.covers ⟨0xF#4 ++ 0#4 ++ fn, 0xF0FF⟩ (wordF x fn) = true := by
  simp only [OpcodeRow.covers, beq_iff_eq, wordF, wordI]
  apply BitVec.eq_of_getLsbD_eq
  intro i hi
  simp only [BitVec.getLsbD_and, BitVec.getLsbD_append]
  interval_cases i <;> simp

theorem cls : Statement .cls := ⟨by simp [Instr.row, opcodeRows], by decide⟩
theorem ret : Statement .ret := ⟨by simp [Instr.row, opcodeRows], by decide⟩
theorem jp (nnn : Addr) : Statement (.jp nnn) := ⟨by simp [Instr.row, opcodeRows], coversA _ nnn⟩
theorem call (nnn : Addr) : Statement (.call nnn) := ⟨by simp [Instr.row, opcodeRows], coversA _ nnn⟩
theorem seImm (x : RegIx) (nn : Byte) : Statement (.seImm x nn) := ⟨by simp [Instr.row, opcodeRows], coversI _ x nn⟩
theorem sneImm (x : RegIx) (nn : Byte) : Statement (.sneImm x nn) := ⟨by simp [Instr.row, opcodeRows], coversI _ x nn⟩
theorem seReg (x y : RegIx) : Statement (.seReg x y) := ⟨by simp [Instr.row, opcodeRows], coversR _ x y _⟩
theorem ldImm (x : RegIx) (nn : Byte) : Statement (.ldImm x nn) := ⟨by simp [Instr.row, opcodeRows], coversI _ x nn⟩
theorem addImm (x : RegIx) (nn : Byte) : Statement (.addImm x nn) := ⟨by simp [Instr.row, opcodeRows], coversI _ x nn⟩
theorem ldReg (x y : RegIx) : Statement (.ldReg x y) := ⟨by simp [Instr.row, opcodeRows], coversR _ x y _⟩
theorem orReg (x y : RegIx) : Statement (.orReg x y) := ⟨by simp [Instr.row, opcodeRows], coversR _ x y _⟩
theorem andReg (x y : RegIx) : Statement (.andReg x y) := ⟨by simp [Instr.row, opcodeRows], coversR _ x y _⟩
theorem addReg (x y : RegIx) : Statement (.addReg x y) := ⟨by simp [Instr.row, opcodeRows], coversR _ x y _⟩
theorem subReg (x y : RegIx) : Statement (.subReg x y) := ⟨by simp [Instr.row, opcodeRows], coversR _ x y _⟩
theorem sneReg (x y : RegIx) : Statement (.sneReg x y) := ⟨by simp [Instr.row, opcodeRows], coversR _ x y _⟩
theorem ldI (nnn : Addr) : Statement (.ldI nnn) := ⟨by simp [Instr.row, opcodeRows], coversA _ nnn⟩
theorem jpV0 (nnn : Addr) : Statement (.jpV0 nnn) := ⟨by simp [Instr.row, opcodeRows], coversA _ nnn⟩
theorem rnd (x : RegIx) (nn : Byte) : Statement (.rnd x nn) := ⟨by simp [Instr.row, opcodeRows], coversI _ x nn⟩
theorem drw (x y : RegIx) (n : Nat) : Statement (.drw x y n) := ⟨by simp [Instr.row, opcodeRows], coversD _ x y _⟩
theorem ldFromDt (x : RegIx) : Statement (.ldFromDt x) := ⟨by simp [Instr.row, opcodeRows], coversF x _⟩
theorem ldDt (x : RegIx) : Statement (.ldDt x) := ⟨by simp [Instr.row, opcodeRows], coversF x _⟩
theorem addI (x : RegIx) : Statement (.addI x) := ⟨by simp [Instr.row, opcodeRows], coversF x _⟩
theorem ldF (x : RegIx) : Statement (.ldF x) := ⟨by simp [Instr.row, opcodeRows], coversF x _⟩
theorem ldB (x : RegIx) : Statement (.ldB x) := ⟨by simp [Instr.row, opcodeRows], coversF x _⟩
theorem storeRegs (x : RegIx) : Statement (.storeRegs x) := ⟨by simp [Instr.row, opcodeRows], coversF x _⟩
theorem loadRegs (x : RegIx) : Statement (.loadRegs x) := ⟨by simp [Instr.row, opcodeRows], coversF x _⟩

end Sys2Proof.Laws.InRow
end

