-- ==== Sys2Proof/Laws/State.lean ====
section
/-! SUPPORT. One lemma per field per named update of State, each true by rfl, so that no later proof
unfolds a record update. -/

namespace Sys2Proof.Machine

section
variable (s : State) (x : RegIx) (v : Byte)

@[simp] theorem State.setReg_regs : (s.setReg x v).regs = s.regs.set x.val v := rfl
@[simp] theorem State.setReg_index : (s.setReg x v).index = s.index := rfl
@[simp] theorem State.setReg_pc : (s.setReg x v).pc = s.pc := rfl
@[simp] theorem State.setReg_stack : (s.setReg x v).stack = s.stack := rfl
@[simp] theorem State.setReg_sp : (s.setReg x v).sp = s.sp := rfl
@[simp] theorem State.setReg_glyphs : (s.setReg x v).glyphs = s.glyphs := rfl
@[simp] theorem State.setReg_mem : (s.setReg x v).mem = s.mem := rfl
@[simp] theorem State.setReg_fb : (s.setReg x v).fb = s.fb := rfl
@[simp] theorem State.setReg_dt : (s.setReg x v).dt = s.dt := rfl
@[simp] theorem State.setReg_st : (s.setReg x v).st = s.st := rfl
@[simp] theorem State.setReg_halt : (s.setReg x v).halt = s.halt := rfl
@[simp] theorem State.setReg_fkind : (s.setReg x v).fkind = s.fkind := rfl
@[simp] theorem State.setReg_finsn : (s.setReg x v).finsn = s.finsn := rfl
@[simp] theorem State.setReg_faddr : (s.setReg x v).faddr = s.faddr := rfl
@[simp] theorem State.setReg_keys : (s.setReg x v).keys = s.keys := rfl
@[simp] theorem State.setReg_tref : (s.setReg x v).tref = s.tref := rfl
@[simp] theorem State.setReg_inputs : (s.setReg x v).inputs = s.inputs := rfl
/-- It reaches no byte of Memory. -/
@[simp] theorem State.readByte_setReg (a : Nat) : (s.setReg x v).readByte a = s.readByte a := rfl

end

section
variable (s : State) (b : Bool)

@[simp] theorem State.setFlag_regs : (s.setFlag b).regs = s.regs.set 15 (if b then 1 else 0) := rfl
@[simp] theorem State.setFlag_index : (s.setFlag b).index = s.index := rfl
@[simp] theorem State.setFlag_pc : (s.setFlag b).pc = s.pc := rfl
@[simp] theorem State.setFlag_stack : (s.setFlag b).stack = s.stack := rfl
@[simp] theorem State.setFlag_sp : (s.setFlag b).sp = s.sp := rfl
@[simp] theorem State.setFlag_glyphs : (s.setFlag b).glyphs = s.glyphs := rfl
@[simp] theorem State.setFlag_mem : (s.setFlag b).mem = s.mem := rfl
@[simp] theorem State.setFlag_fb : (s.setFlag b).fb = s.fb := rfl
@[simp] theorem State.setFlag_dt : (s.setFlag b).dt = s.dt := rfl
@[simp] theorem State.setFlag_st : (s.setFlag b).st = s.st := rfl
@[simp] theorem State.setFlag_halt : (s.setFlag b).halt = s.halt := rfl
@[simp] theorem State.setFlag_fkind : (s.setFlag b).fkind = s.fkind := rfl
@[simp] theorem State.setFlag_finsn : (s.setFlag b).finsn = s.finsn := rfl
@[simp] theorem State.setFlag_faddr : (s.setFlag b).faddr = s.faddr := rfl
@[simp] theorem State.setFlag_keys : (s.setFlag b).keys = s.keys := rfl
@[simp] theorem State.setFlag_tref : (s.setFlag b).tref = s.tref := rfl
@[simp] theorem State.setFlag_inputs : (s.setFlag b).inputs = s.inputs := rfl
/-- It reaches no byte of Memory. -/
@[simp] theorem State.readByte_setFlag (a : Nat) : (s.setFlag b).readByte a = s.readByte a := rfl

end

section
variable (s : State) (x : RegIx) (v : Byte) (b : Bool)

@[simp] theorem State.setRegThenFlag_regs : (s.setRegThenFlag x v b).regs = (s.regs.set x.val v).set 15 (if b then 1 else 0) := rfl
@[simp] theorem State.setRegThenFlag_index : (s.setRegThenFlag x v b).index = s.index := rfl
@[simp] theorem State.setRegThenFlag_pc : (s.setRegThenFlag x v b).pc = s.pc := rfl
@[simp] theorem State.setRegThenFlag_stack : (s.setRegThenFlag x v b).stack = s.stack := rfl
@[simp] theorem State.setRegThenFlag_sp : (s.setRegThenFlag x v b).sp = s.sp := rfl
@[simp] theorem State.setRegThenFlag_glyphs : (s.setRegThenFlag x v b).glyphs = s.glyphs := rfl
@[simp] theorem State.setRegThenFlag_mem : (s.setRegThenFlag x v b).mem = s.mem := rfl
@[simp] theorem State.setRegThenFlag_fb : (s.setRegThenFlag x v b).fb = s.fb := rfl
@[simp] theorem State.setRegThenFlag_dt : (s.setRegThenFlag x v b).dt = s.dt := rfl
@[simp] theorem State.setRegThenFlag_st : (s.setRegThenFlag x v b).st = s.st := rfl
@[simp] theorem State.setRegThenFlag_halt : (s.setRegThenFlag x v b).halt = s.halt := rfl
@[simp] theorem State.setRegThenFlag_fkind : (s.setRegThenFlag x v b).fkind = s.fkind := rfl
@[simp] theorem State.setRegThenFlag_finsn : (s.setRegThenFlag x v b).finsn = s.finsn := rfl
@[simp] theorem State.setRegThenFlag_faddr : (s.setRegThenFlag x v b).faddr = s.faddr := rfl
@[simp] theorem State.setRegThenFlag_keys : (s.setRegThenFlag x v b).keys = s.keys := rfl
@[simp] theorem State.setRegThenFlag_tref : (s.setRegThenFlag x v b).tref = s.tref := rfl
@[simp] theorem State.setRegThenFlag_inputs : (s.setRegThenFlag x v b).inputs = s.inputs := rfl
/-- It reaches no byte of Memory. -/
@[simp] theorem State.readByte_setRegThenFlag (a : Nat) : (s.setRegThenFlag x v b).readByte a = s.readByte a := rfl

end

section
variable (s : State) (bytes : List Byte)

@[simp] theorem State.setRegs_regs : (s.setRegs bytes).regs = Vector.ofFn fun k => bytes.getD k.val s.regs[k.val] := rfl
@[simp] theorem State.setRegs_index : (s.setRegs bytes).index = s.index := rfl
@[simp] theorem State.setRegs_pc : (s.setRegs bytes).pc = s.pc := rfl
@[simp] theorem State.setRegs_stack : (s.setRegs bytes).stack = s.stack := rfl
@[simp] theorem State.setRegs_sp : (s.setRegs bytes).sp = s.sp := rfl
@[simp] theorem State.setRegs_glyphs : (s.setRegs bytes).glyphs = s.glyphs := rfl
@[simp] theorem State.setRegs_mem : (s.setRegs bytes).mem = s.mem := rfl
@[simp] theorem State.setRegs_fb : (s.setRegs bytes).fb = s.fb := rfl
@[simp] theorem State.setRegs_dt : (s.setRegs bytes).dt = s.dt := rfl
@[simp] theorem State.setRegs_st : (s.setRegs bytes).st = s.st := rfl
@[simp] theorem State.setRegs_halt : (s.setRegs bytes).halt = s.halt := rfl
@[simp] theorem State.setRegs_fkind : (s.setRegs bytes).fkind = s.fkind := rfl
@[simp] theorem State.setRegs_finsn : (s.setRegs bytes).finsn = s.finsn := rfl
@[simp] theorem State.setRegs_faddr : (s.setRegs bytes).faddr = s.faddr := rfl
@[simp] theorem State.setRegs_keys : (s.setRegs bytes).keys = s.keys := rfl
@[simp] theorem State.setRegs_tref : (s.setRegs bytes).tref = s.tref := rfl
@[simp] theorem State.setRegs_inputs : (s.setRegs bytes).inputs = s.inputs := rfl
/-- It reaches no byte of Memory. -/
@[simp] theorem State.readByte_setRegs (a : Nat) : (s.setRegs bytes).readByte a = s.readByte a := rfl

end

section
variable (s : State) (v : Addr)

@[simp] theorem State.setIndex_regs : (s.setIndex v).regs = s.regs := rfl
@[simp] theorem State.setIndex_index : (s.setIndex v).index = v := rfl
@[simp] theorem State.setIndex_pc : (s.setIndex v).pc = s.pc := rfl
@[simp] theorem State.setIndex_stack : (s.setIndex v).stack = s.stack := rfl
@[simp] theorem State.setIndex_sp : (s.setIndex v).sp = s.sp := rfl
@[simp] theorem State.setIndex_glyphs : (s.setIndex v).glyphs = s.glyphs := rfl
@[simp] theorem State.setIndex_mem : (s.setIndex v).mem = s.mem := rfl
@[simp] theorem State.setIndex_fb : (s.setIndex v).fb = s.fb := rfl
@[simp] theorem State.setIndex_dt : (s.setIndex v).dt = s.dt := rfl
@[simp] theorem State.setIndex_st : (s.setIndex v).st = s.st := rfl
@[simp] theorem State.setIndex_halt : (s.setIndex v).halt = s.halt := rfl
@[simp] theorem State.setIndex_fkind : (s.setIndex v).fkind = s.fkind := rfl
@[simp] theorem State.setIndex_finsn : (s.setIndex v).finsn = s.finsn := rfl
@[simp] theorem State.setIndex_faddr : (s.setIndex v).faddr = s.faddr := rfl
@[simp] theorem State.setIndex_keys : (s.setIndex v).keys = s.keys := rfl
@[simp] theorem State.setIndex_tref : (s.setIndex v).tref = s.tref := rfl
@[simp] theorem State.setIndex_inputs : (s.setIndex v).inputs = s.inputs := rfl
/-- It reaches no byte of Memory. -/
@[simp] theorem State.readByte_setIndex (a : Nat) : (s.setIndex v).readByte a = s.readByte a := rfl

end

section
variable (s : State) (v : Addr)

@[simp] theorem State.setPc_regs : (s.setPc v).regs = s.regs := rfl
@[simp] theorem State.setPc_index : (s.setPc v).index = s.index := rfl
@[simp] theorem State.setPc_pc : (s.setPc v).pc = v := rfl
@[simp] theorem State.setPc_stack : (s.setPc v).stack = s.stack := rfl
@[simp] theorem State.setPc_sp : (s.setPc v).sp = s.sp := rfl
@[simp] theorem State.setPc_glyphs : (s.setPc v).glyphs = s.glyphs := rfl
@[simp] theorem State.setPc_mem : (s.setPc v).mem = s.mem := rfl
@[simp] theorem State.setPc_fb : (s.setPc v).fb = s.fb := rfl
@[simp] theorem State.setPc_dt : (s.setPc v).dt = s.dt := rfl
@[simp] theorem State.setPc_st : (s.setPc v).st = s.st := rfl
@[simp] theorem State.setPc_halt : (s.setPc v).halt = s.halt := rfl
@[simp] theorem State.setPc_fkind : (s.setPc v).fkind = s.fkind := rfl
@[simp] theorem State.setPc_finsn : (s.setPc v).finsn = s.finsn := rfl
@[simp] theorem State.setPc_faddr : (s.setPc v).faddr = s.faddr := rfl
@[simp] theorem State.setPc_keys : (s.setPc v).keys = s.keys := rfl
@[simp] theorem State.setPc_tref : (s.setPc v).tref = s.tref := rfl
@[simp] theorem State.setPc_inputs : (s.setPc v).inputs = s.inputs := rfl
/-- It reaches no byte of Memory. -/
@[simp] theorem State.readByte_setPc (a : Nat) : (s.setPc v).readByte a = s.readByte a := rfl

end

section
variable (s : State) (v : Byte)

@[simp] theorem State.setDt_regs : (s.setDt v).regs = s.regs := rfl
@[simp] theorem State.setDt_index : (s.setDt v).index = s.index := rfl
@[simp] theorem State.setDt_pc : (s.setDt v).pc = s.pc := rfl
@[simp] theorem State.setDt_stack : (s.setDt v).stack = s.stack := rfl
@[simp] theorem State.setDt_sp : (s.setDt v).sp = s.sp := rfl
@[simp] theorem State.setDt_glyphs : (s.setDt v).glyphs = s.glyphs := rfl
@[simp] theorem State.setDt_mem : (s.setDt v).mem = s.mem := rfl
@[simp] theorem State.setDt_fb : (s.setDt v).fb = s.fb := rfl
@[simp] theorem State.setDt_dt : (s.setDt v).dt = v := rfl
@[simp] theorem State.setDt_st : (s.setDt v).st = s.st := rfl
@[simp] theorem State.setDt_halt : (s.setDt v).halt = s.halt := rfl
@[simp] theorem State.setDt_fkind : (s.setDt v).fkind = s.fkind := rfl
@[simp] theorem State.setDt_finsn : (s.setDt v).finsn = s.finsn := rfl
@[simp] theorem State.setDt_faddr : (s.setDt v).faddr = s.faddr := rfl
@[simp] theorem State.setDt_keys : (s.setDt v).keys = s.keys := rfl
@[simp] theorem State.setDt_tref : (s.setDt v).tref = s.tref := rfl
@[simp] theorem State.setDt_inputs : (s.setDt v).inputs = s.inputs := rfl
/-- It reaches no byte of Memory. -/
@[simp] theorem State.readByte_setDt (a : Nat) : (s.setDt v).readByte a = s.readByte a := rfl

end

section
variable (s : State) (f : Framebuffer)

@[simp] theorem State.setFb_regs : (s.setFb f).regs = s.regs := rfl
@[simp] theorem State.setFb_index : (s.setFb f).index = s.index := rfl
@[simp] theorem State.setFb_pc : (s.setFb f).pc = s.pc := rfl
@[simp] theorem State.setFb_stack : (s.setFb f).stack = s.stack := rfl
@[simp] theorem State.setFb_sp : (s.setFb f).sp = s.sp := rfl
@[simp] theorem State.setFb_glyphs : (s.setFb f).glyphs = s.glyphs := rfl
@[simp] theorem State.setFb_mem : (s.setFb f).mem = s.mem := rfl
@[simp] theorem State.setFb_fb : (s.setFb f).fb = f := rfl
@[simp] theorem State.setFb_dt : (s.setFb f).dt = s.dt := rfl
@[simp] theorem State.setFb_st : (s.setFb f).st = s.st := rfl
@[simp] theorem State.setFb_halt : (s.setFb f).halt = s.halt := rfl
@[simp] theorem State.setFb_fkind : (s.setFb f).fkind = s.fkind := rfl
@[simp] theorem State.setFb_finsn : (s.setFb f).finsn = s.finsn := rfl
@[simp] theorem State.setFb_faddr : (s.setFb f).faddr = s.faddr := rfl
@[simp] theorem State.setFb_keys : (s.setFb f).keys = s.keys := rfl
@[simp] theorem State.setFb_tref : (s.setFb f).tref = s.tref := rfl
@[simp] theorem State.setFb_inputs : (s.setFb f).inputs = s.inputs := rfl
/-- It reaches no byte of Memory. -/
@[simp] theorem State.readByte_setFb (a : Nat) : (s.setFb f).readByte a = s.readByte a := rfl

end

section
variable (s : State) (k : Fault) (w : Word)

@[simp] theorem State.enterFault_regs : (s.enterFault k w).regs = s.regs := rfl
@[simp] theorem State.enterFault_index : (s.enterFault k w).index = s.index := rfl
@[simp] theorem State.enterFault_pc : (s.enterFault k w).pc = s.pc := rfl
@[simp] theorem State.enterFault_stack : (s.enterFault k w).stack = s.stack := rfl
@[simp] theorem State.enterFault_sp : (s.enterFault k w).sp = s.sp := rfl
@[simp] theorem State.enterFault_glyphs : (s.enterFault k w).glyphs = s.glyphs := rfl
@[simp] theorem State.enterFault_mem : (s.enterFault k w).mem = s.mem := rfl
@[simp] theorem State.enterFault_fb : (s.enterFault k w).fb = s.fb := rfl
@[simp] theorem State.enterFault_dt : (s.enterFault k w).dt = s.dt := rfl
@[simp] theorem State.enterFault_st : (s.enterFault k w).st = s.st := rfl
@[simp] theorem State.enterFault_halt : (s.enterFault k w).halt = true := rfl
@[simp] theorem State.enterFault_fkind : (s.enterFault k w).fkind = k.code := rfl
@[simp] theorem State.enterFault_finsn : (s.enterFault k w).finsn = w := rfl
@[simp] theorem State.enterFault_faddr : (s.enterFault k w).faddr = s.pc := rfl
@[simp] theorem State.enterFault_keys : (s.enterFault k w).keys = s.keys := rfl
@[simp] theorem State.enterFault_tref : (s.enterFault k w).tref = s.tref := rfl
@[simp] theorem State.enterFault_inputs : (s.enterFault k w).inputs = s.inputs := rfl
/-- It reaches no byte of Memory. -/
@[simp] theorem State.readByte_enterFault (a : Nat) : (s.enterFault k w).readByte a = s.readByte a := rfl

end

section
variable (s : State) (fires : Bool) (now : Nat)

@[simp] theorem State.timerCheck_regs : (s.timerCheck fires now).regs = s.regs := rfl
@[simp] theorem State.timerCheck_index : (s.timerCheck fires now).index = s.index := rfl
@[simp] theorem State.timerCheck_pc : (s.timerCheck fires now).pc = s.pc := rfl
@[simp] theorem State.timerCheck_stack : (s.timerCheck fires now).stack = s.stack := rfl
@[simp] theorem State.timerCheck_sp : (s.timerCheck fires now).sp = s.sp := rfl
@[simp] theorem State.timerCheck_glyphs : (s.timerCheck fires now).glyphs = s.glyphs := rfl
@[simp] theorem State.timerCheck_mem : (s.timerCheck fires now).mem = s.mem := rfl
@[simp] theorem State.timerCheck_fb : (s.timerCheck fires now).fb = s.fb := rfl
@[simp] theorem State.timerCheck_dt : (s.timerCheck fires now).dt = tickDown fires s.dt := rfl
@[simp] theorem State.timerCheck_st : (s.timerCheck fires now).st = tickDown fires s.st := rfl
@[simp] theorem State.timerCheck_halt : (s.timerCheck fires now).halt = s.halt := rfl
@[simp] theorem State.timerCheck_fkind : (s.timerCheck fires now).fkind = s.fkind := rfl
@[simp] theorem State.timerCheck_finsn : (s.timerCheck fires now).finsn = s.finsn := rfl
@[simp] theorem State.timerCheck_faddr : (s.timerCheck fires now).faddr = s.faddr := rfl
@[simp] theorem State.timerCheck_keys : (s.timerCheck fires now).keys = s.keys := rfl
@[simp] theorem State.timerCheck_tref : (s.timerCheck fires now).tref = if fires then now else s.tref := rfl
@[simp] theorem State.timerCheck_inputs : (s.timerCheck fires now).inputs = s.inputs := rfl
/-- It reaches no byte of Memory. -/
@[simp] theorem State.readByte_timerCheck (a : Nat) : (s.timerCheck fires now).readByte a = s.readByte a := rfl

end

section
variable (s : State)

@[simp] theorem State.nextInputs_regs : (s.nextInputs).regs = s.regs := rfl
@[simp] theorem State.nextInputs_index : (s.nextInputs).index = s.index := rfl
@[simp] theorem State.nextInputs_pc : (s.nextInputs).pc = s.pc := rfl
@[simp] theorem State.nextInputs_stack : (s.nextInputs).stack = s.stack := rfl
@[simp] theorem State.nextInputs_sp : (s.nextInputs).sp = s.sp := rfl
@[simp] theorem State.nextInputs_glyphs : (s.nextInputs).glyphs = s.glyphs := rfl
@[simp] theorem State.nextInputs_mem : (s.nextInputs).mem = s.mem := rfl
@[simp] theorem State.nextInputs_fb : (s.nextInputs).fb = s.fb := rfl
@[simp] theorem State.nextInputs_dt : (s.nextInputs).dt = s.dt := rfl
@[simp] theorem State.nextInputs_st : (s.nextInputs).st = s.st := rfl
@[simp] theorem State.nextInputs_halt : (s.nextInputs).halt = s.halt := rfl
@[simp] theorem State.nextInputs_fkind : (s.nextInputs).fkind = s.fkind := rfl
@[simp] theorem State.nextInputs_finsn : (s.nextInputs).finsn = s.finsn := rfl
@[simp] theorem State.nextInputs_faddr : (s.nextInputs).faddr = s.faddr := rfl
@[simp] theorem State.nextInputs_keys : (s.nextInputs).keys = s.keys := rfl
@[simp] theorem State.nextInputs_tref : (s.nextInputs).tref = s.tref := rfl
@[simp] theorem State.nextInputs_inputs : (s.nextInputs).inputs = s.inputs + 1 := rfl
/-- It reaches no byte of Memory. -/
@[simp] theorem State.readByte_nextInputs (a : Nat) : (s.nextInputs).readByte a = s.readByte a := rfl

end

section
variable (s : State) (k : Fin 16)

@[simp] theorem State.keyDown_regs : (s.keyDown k).regs = s.regs := rfl
@[simp] theorem State.keyDown_index : (s.keyDown k).index = s.index := rfl
@[simp] theorem State.keyDown_pc : (s.keyDown k).pc = s.pc := rfl
@[simp] theorem State.keyDown_stack : (s.keyDown k).stack = s.stack := rfl
@[simp] theorem State.keyDown_sp : (s.keyDown k).sp = s.sp := rfl
@[simp] theorem State.keyDown_glyphs : (s.keyDown k).glyphs = s.glyphs := rfl
@[simp] theorem State.keyDown_mem : (s.keyDown k).mem = s.mem := rfl
@[simp] theorem State.keyDown_fb : (s.keyDown k).fb = s.fb := rfl
@[simp] theorem State.keyDown_dt : (s.keyDown k).dt = s.dt := rfl
@[simp] theorem State.keyDown_st : (s.keyDown k).st = s.st := rfl
@[simp] theorem State.keyDown_halt : (s.keyDown k).halt = s.halt := rfl
@[simp] theorem State.keyDown_fkind : (s.keyDown k).fkind = s.fkind := rfl
@[simp] theorem State.keyDown_finsn : (s.keyDown k).finsn = s.finsn := rfl
@[simp] theorem State.keyDown_faddr : (s.keyDown k).faddr = s.faddr := rfl
@[simp] theorem State.keyDown_keys : (s.keyDown k).keys = s.keys ||| ((1#16) <<< k.val) := rfl
@[simp] theorem State.keyDown_tref : (s.keyDown k).tref = s.tref := rfl
@[simp] theorem State.keyDown_inputs : (s.keyDown k).inputs = s.inputs := rfl
/-- It reaches no byte of Memory. -/
@[simp] theorem State.readByte_keyDown (a : Nat) : (s.keyDown k).readByte a = s.readByte a := rfl

end

section
variable (s : State) (k : Fin 16)

@[simp] theorem State.keyUp_regs : (s.keyUp k).regs = s.regs := rfl
@[simp] theorem State.keyUp_index : (s.keyUp k).index = s.index := rfl
@[simp] theorem State.keyUp_pc : (s.keyUp k).pc = s.pc := rfl
@[simp] theorem State.keyUp_stack : (s.keyUp k).stack = s.stack := rfl
@[simp] theorem State.keyUp_sp : (s.keyUp k).sp = s.sp := rfl
@[simp] theorem State.keyUp_glyphs : (s.keyUp k).glyphs = s.glyphs := rfl
@[simp] theorem State.keyUp_mem : (s.keyUp k).mem = s.mem := rfl
@[simp] theorem State.keyUp_fb : (s.keyUp k).fb = s.fb := rfl
@[simp] theorem State.keyUp_dt : (s.keyUp k).dt = s.dt := rfl
@[simp] theorem State.keyUp_st : (s.keyUp k).st = s.st := rfl
@[simp] theorem State.keyUp_halt : (s.keyUp k).halt = s.halt := rfl
@[simp] theorem State.keyUp_fkind : (s.keyUp k).fkind = s.fkind := rfl
@[simp] theorem State.keyUp_finsn : (s.keyUp k).finsn = s.finsn := rfl
@[simp] theorem State.keyUp_faddr : (s.keyUp k).faddr = s.faddr := rfl
@[simp] theorem State.keyUp_keys : (s.keyUp k).keys = s.keys &&& ~~~((1#16) <<< k.val) := rfl
@[simp] theorem State.keyUp_tref : (s.keyUp k).tref = s.tref := rfl
@[simp] theorem State.keyUp_inputs : (s.keyUp k).inputs = s.inputs := rfl
/-- It reaches no byte of Memory. -/
@[simp] theorem State.readByte_keyUp (a : Nat) : (s.keyUp k).readByte a = s.readByte a := rfl

end

end Sys2Proof.Machine
end

