-- ==== Sys2Proof/Laws/Step.lean ====
section
/-! SUPPORT. Everything a step can do (40_step_cycle.md R82), said once. -/

namespace Sys2Proof.Machine

/-- A halted machine's step (R88). -/
theorem step_halted {s : State} (h : s.halt = true) : step s = .next s := by simp [step, h]

/-- A running machine that fetched and decoded executes, then ends the step. -/
theorem step_running {s : State} {w : Word} {i : Instr} (h : s.halt = false) (hf : s.fetch = .ok w)
    (hd : decodeWord w = .ok i) : step s = finishStep (exec i s) := by simp [step, h, hf, hd]

/-- Inversion of a step: the halted identity, a fetch that faults, a word outside the table, or the decoded
instruction followed by the end of the step. -/
theorem step_cases {s t : State} (h : step s = .next t) :
    (s.halt = true ∧ t = s) ∨
    (s.halt = false ∧ ∃ k, s.fetch = .error k ∧ t = s.enterFault k 0) ∨
    (s.halt = false ∧ ∃ w e, s.fetch = .ok w ∧ decodeWord w = .error e ∧ t = s.enterFault .unsupportedOpcode w) ∨
    (s.halt = false ∧ ∃ w i u, s.fetch = .ok w ∧ decodeWord w = .ok i ∧ exec i s = .next u ∧
      t = if u.halt then u else (u.timerCheck (Config.tickInput u.inputs) (Config.nowInput u.inputs)).nextInputs) := by
  cases hh : s.halt with
  | true => rw [step_halted hh] at h; exact .inl ⟨rfl, by simpa using h.symm⟩
  | false =>
    cases hf : s.fetch with
    | error k => exact .inr (.inl ⟨rfl, k, rfl, by simpa [step, hh, hf] using h.symm⟩)
    | ok w =>
      cases hd : decodeWord w with
      | error e => exact .inr (.inr (.inl ⟨rfl, w, e, rfl, hd, by simpa [step, hh, hf, hd] using h.symm⟩))
      | ok i =>
        rw [step_running hh hf hd] at h
        cases he : exec i s with
        | next u =>
          rw [he, finishStep_next] at h
          exact .inr (.inr (.inr ⟨rfl, w, i, u, rfl, hd, he, by simpa using h.symm⟩))
        | fault k => rw [he] at h; cases h
        | refused r => rw [he] at h; cases h

end Sys2Proof.Machine
end

