-- ==== Sys2Proof/Machine/Assembly.lean ====
section
/-! DEFINITION. The assembler syntax of an instruction (30_encoding.md R71), as a listing writes it. The
mnemonics and the operand syntax are the spec's own names (log entry 5). -/

namespace Sys2Proof

/-- A hexadecimal digit. -/
def hexDigit (n : Nibble) : String :=
  match n.toNat with
  | 10 => "A"
  | 11 => "B"
  | 12 => "C"
  | 13 => "D"
  | 14 => "E"
  | 15 => "F"
  | k => toString k

/-- The operand `Vx`: `V0` to `VF`. -/
def asmReg (x : RegIx) : String := "V" ++ hexDigit (regNibble x)

/-- The operand `NN`. -/
def asmImm (v : Byte) : String := "0x" ++ hexDigit (v.extractLsb' 4 4) ++ hexDigit (v.extractLsb' 0 4)

/-- The operand `NNN`. -/
def asmAddr (v : Addr) : String :=
  "0x" ++ hexDigit (v.extractLsb' 8 4) ++ hexDigit (v.extractLsb' 4 4) ++ hexDigit (v.extractLsb' 0 4)

/-- One line of a listing: the mnemonic, then the operands, the destination first where there is one (R71). -/
def Instr.assembly : Instr → String
  | .cls => "CLS"
  | .ret => "RET"
  | .jp nnn => "JP " ++ asmAddr nnn
  | .call nnn => "CALL " ++ asmAddr nnn
  | .seImm x nn => "SE " ++ asmReg x ++ ", " ++ asmImm nn
  | .sneImm x nn => "SNE " ++ asmReg x ++ ", " ++ asmImm nn
  | .seReg x y => "SE " ++ asmReg x ++ ", " ++ asmReg y
  | .ldImm x nn => "LD " ++ asmReg x ++ ", " ++ asmImm nn
  | .addImm x nn => "ADD " ++ asmReg x ++ ", " ++ asmImm nn
  | .ldReg x y => "LD " ++ asmReg x ++ ", " ++ asmReg y
  | .orReg x y => "OR " ++ asmReg x ++ ", " ++ asmReg y
  | .andReg x y => "AND " ++ asmReg x ++ ", " ++ asmReg y
  | .addReg x y => "ADD " ++ asmReg x ++ ", " ++ asmReg y
  | .subReg x y => "SUB " ++ asmReg x ++ ", " ++ asmReg y
  | .sneReg x y => "SNE " ++ asmReg x ++ ", " ++ asmReg y
  | .ldI nnn => "LD I, " ++ asmAddr nnn
  | .jpV0 nnn => "JP V0, " ++ asmAddr nnn
  | .rnd x nn => "RND " ++ asmReg x ++ ", " ++ asmImm nn
  | .drw x y n => "DRW " ++ asmReg x ++ ", " ++ asmReg y ++ ", " ++ toString n
  | .ldFromDt x => "LD " ++ asmReg x ++ ", DT"
  | .ldDt x => "LD DT, " ++ asmReg x
  | .addI x => "ADD I, " ++ asmReg x
  | .ldF x => "LD F, " ++ asmReg x
  | .ldB x => "LD B, " ++ asmReg x
  | .storeRegs x => "LD [I], " ++ asmReg x
  | .loadRegs x => "LD " ++ asmReg x ++ ", [I]"

end Sys2Proof
end

