-- ==== Sys2Proof/Tests/Slice0.lean ====
section
/-! SUPPORT. The model's own tests. Every expected value is from the spec: the encodings from 30_encoding.md
R65, the results from the vectors of 95_test_vectors.md, whose numbers (S1, TC8, ...) the comments give. After
them, for each statement of Certificates/Slice0/Obligations.lean that has hypotheses, a witness that they can be
met, each clause at a boundary of its range. -/

namespace Sys2Proof.Tests

open Sys2Proof Sys2Proof.Machine

/-! Well-formedness and decoding. -/

theorem test_wellFormed_refuses_drw16 : (Instr.drw 0 0 16).wellFormed = false := by decide
theorem test_wellFormed_takes_drw15 : (Instr.drw 0 0 15).wellFormed = true := by decide

-- One word a row of R65, written out bit by bit: opcode nibble, then the fields, then the literal nibbles.
theorem test_decode_cls : decodeWord 0b0000000011100000 = .ok .cls := by decide
theorem test_decode_ret : decodeWord 0b0000000011101110 = .ok .ret := by decide
theorem test_decode_jp : decodeWord 0b0001001101011111 = .ok (.jp 0x35F) := by decide
theorem test_decode_call : decodeWord 0b0010010100000001 = .ok (.call 0x501) := by decide
theorem test_decode_seImm : decodeWord 0b0011001100101010 = .ok (.seImm 3 0x2A) := by decide
theorem test_decode_sneImm : decodeWord 0b0100001100101011 = .ok (.sneImm 3 0x2B) := by decide
theorem test_decode_seReg : decodeWord 0b0101000100100000 = .ok (.seReg 1 2) := by decide
theorem test_decode_ldImm : decodeWord 0b0110101000010010 = .ok (.ldImm 10 0x12) := by decide
theorem test_decode_addImm : decodeWord 0b0111001000000101 = .ok (.addImm 2 0x05) := by decide
theorem test_decode_ldReg : decodeWord 0b1000000100100000 = .ok (.ldReg 1 2) := by decide
theorem test_decode_orReg : decodeWord 0b1000000100100001 = .ok (.orReg 1 2) := by decide
theorem test_decode_andReg : decodeWord 0b1000000100100010 = .ok (.andReg 1 2) := by decide
theorem test_decode_addReg : decodeWord 0b1000000100100100 = .ok (.addReg 1 2) := by decide
theorem test_decode_subReg : decodeWord 0b1000000100100101 = .ok (.subReg 1 2) := by decide
theorem test_decode_sneReg : decodeWord 0b1001000100100000 = .ok (.sneReg 1 2) := by decide
theorem test_decode_ldI : decodeWord 0b1010001011110000 = .ok (.ldI 0x2F0) := by decide
theorem test_decode_jpV0 : decodeWord 0b1011010100010010 = .ok (.jpV0 0x512) := by decide
theorem test_decode_rnd : decodeWord 0b1100001100001111 = .ok (.rnd 3 0x0F) := by decide
theorem test_decode_drw : decodeWord 0b1101000100100101 = .ok (.drw 1 2 5) := by decide
theorem test_decode_ldFromDt : decodeWord 0b1111010100000111 = .ok (.ldFromDt 5) := by decide
theorem test_decode_ldDt : decodeWord 0b1111001100010101 = .ok (.ldDt 3) := by decide
theorem test_decode_addI : decodeWord 0b1111010000011110 = .ok (.addI 4) := by decide
theorem test_decode_ldF : decodeWord 0b1111011000101001 = .ok (.ldF 6) := by decide
theorem test_decode_ldB : decodeWord 0b1111011100110011 = .ok (.ldB 7) := by decide
theorem test_decode_storeRegs : decodeWord 0b1111001001010101 = .ok (.storeRegs 2) := by decide
theorem test_decode_loadRegs : decodeWord 0b1111001101100101 = .ok (.loadRegs 3) := by decide

-- TA2, TA3, TA5, TA7, TA8: words no row covers, beside the nearest that one does.
theorem test_decode_00E1 : decodeWord 0x00E1 = .error (.unsupported 0x00E1) := by decide
theorem test_decode_5121 : decodeWord 0x5121 = .error (.unsupported 0x5121) := by decide
theorem test_decode_8123 : decodeWord 0x8123 = .error (.unsupported 0x8123) := by decide
theorem test_decode_E19E : decodeWord 0xE19E = .error (.unsupported 0xE19E) := by decide
theorem test_decode_F118 : decodeWord 0xF118 = .error (.unsupported 0xF118) := by decide
theorem test_decode_truncated : decode [0x12] = .error .truncated := by decide
theorem test_decode_keeps_rest : decode [0x60, 0x12, 0xFF] = .ok (.ldImm 0 0x12, [0xFF]) := by decide

-- P1 and P3: lines of the spec's listings.
theorem test_assembly_drw : (Instr.drw 0 1 2).assembly = "DRW V0, V1, 2" := by decide +kernel
theorem test_assembly_ldI : (Instr.ldI 0x20C).assembly = "LD I, 0x20C" := by decide +kernel
theorem test_assembly_addImm : (Instr.addImm 0 0xFF).assembly = "ADD V0, 0xFF" := by decide +kernel

/-! One instruction each. -/

/-- A fresh machine with its `pc` at `p`. -/
def stateAt (p : Addr) : State := { State.reset with pc := p }

/-- A fresh machine with some registers set. -/
def withRegs (l : List (RegIx × Byte)) : State := l.foldl (fun s p => s.setReg p.1 p.2) State.reset

/-- A fresh machine with `x[0]`, `x[1]` and `I` set. -/
def withXyI (a b : Byte) (i : Addr) : State := (withRegs [(0, a), (1, b)]).setIndex i

/-- The same machine with bytes placed in its writable Memory. -/
def withBytes (s : State) (a : Nat) (bytes : List Byte) : State := { s with mem := s.mem.writeAll a bytes }

/-- What a test looks at in the next state. -/
def look {α : Type} (r : Result) (f : State → α) : Option α :=
  match r with
  | .next t => some (f t)
  | .fault _ => none
  | .refused _ => none

/-- The fault kind and whether the machine halted. -/
def faultOf (t : State) : Bool × BitVec 3 := (t.halt, t.fkind)

-- TE1: every cell of a framebuffer with a cell 1 is cleared, the flag register kept.
theorem test_cls : look (exec .cls ((withRegs [(15, 7)]).setFb (Framebuffer.clear.setCell 3 5 true)))
    (fun t => (t.fb.cell 3 5, t.reg 15, t.pc)) = some (false, 7, 0x202) := by decide +kernel
-- TB9, TB8.
theorem test_ret : look (exec .ret { State.reset with stack := (State.reset.stack.set 0 0x200).set 1 0x2F0, sp := 2 })
    (fun t => (t.pc, t.sp, t.stack[1])) = some (0x2F2, 1, 0x2F0) := by decide
theorem test_ret_underflow : look (exec .ret State.reset) faultOf = some (true, 2) := by decide
-- TB1, TA15.
theorem test_jp_self : look (exec (.jp 0x200) State.reset) (fun t => t.pc) = some 0x200 := by decide
theorem test_jp_top : look (exec (.jp 0xFFE) (stateAt 0xFFE)) (fun t => (t.pc, t.halt)) = some (0xFFE, false) := by decide
-- TB6, TB7.
theorem test_call_last : look (exec (.call 0x400) { stateAt 0x300 with sp := 31 })
    (fun t => (t.pc, t.sp, t.stack[31])) = some (0x400, 32, 0x300) := by decide
theorem test_call_overflow : look (exec (.call 0x400) { stateAt 0x300 with sp := 32 })
    (fun t => (t.halt, t.fkind, t.finsn, t.faddr, t.sp)) = some (true, 3, 0x2400, 0x300, 32) := by decide
-- TB20, TB17.
theorem test_seImm_flag_register : look (exec (.seImm 15 1) (withRegs [(15, 1)])) (fun t => t.pc) = some 0x204 := by decide
theorem test_seImm_bound : look (exec (.seImm 0 0) (stateAt 0xFFC)) faultOf = some (true, 4) := by decide
-- TB13, TB14.
theorem test_sneImm_equal : look (exec (.sneImm 3 0x2A) (withRegs [(3, 0x2A)])) (fun t => t.pc) = some 0x202 := by decide
theorem test_sneImm_differ : look (exec (.sneImm 3 0x2B) (withRegs [(3, 0x2A)])) (fun t => t.pc) = some 0x204 := by decide
-- TB15, TB16.
theorem test_seReg_same : look (exec (.seReg 4 4) (withRegs [(4, 9)])) (fun t => t.pc) = some 0x204 := by decide
theorem test_sneReg_same : look (exec (.sneReg 4 4) (withRegs [(4, 9)])) (fun t => t.pc) = some 0x202 := by decide
-- TA13, TA11.
theorem test_ldImm_top : look (exec (.ldImm 0 0x12) (stateAt 0xFFD)) (fun t => (t.reg 0, t.pc)) = some (0x12, 0xFFF) := by decide
theorem test_ldImm_bound : look (exec (.ldImm 0 0x12) (stateAt 0xFFE))
    (fun t => (t.halt, t.fkind, t.finsn, t.faddr, t.reg 0)) = some (true, 4, 0x6012, 0xFFE, 0) := by decide
-- TC2, TC4.
theorem test_addImm_wraps : look (exec (.addImm 2 0x01) (withRegs [(2, 0xFF)])) (fun t => (t.reg 2, t.reg 15)) =
    some (0x00, 0) := by decide
theorem test_addImm_flag_register : look (exec (.addImm 15 2) (withRegs [(15, 1)])) (fun t => t.reg 15) = some 3 := by decide
-- TC5.
theorem test_ldReg : look (exec (.ldReg 1 2) (withRegs [(1, 0x10), (2, 0x99)])) (fun t => (t.reg 1, t.reg 2)) =
    some (0x99, 0x99) := by decide
-- TC6.
theorem test_orReg : look (exec (.orReg 1 2) (withRegs [(1, 0xF0), (2, 0x0C), (15, 1)])) (fun t => (t.reg 1, t.reg 15)) =
    some (0xFC, 1) := by decide
-- TC7.
theorem test_andReg : look (exec (.andReg 1 2) (withRegs [(1, 0xF5), (2, 0x3C), (15, 1)])) (fun t => (t.reg 1, t.reg 15)) =
    some (0x34, 1) := by decide
-- S1, TC11.
theorem test_addReg_carry : look (exec (.addReg 1 2) (withRegs [(1, 0x39), (2, 0xFF)])) (fun t => (t.reg 1, t.reg 15)) =
    some (0x38, 1) := by decide
theorem test_addReg_into_flag : look (exec (.addReg 15 1) (withRegs [(15, 0x80), (1, 0x90)])) (fun t => t.reg 15) =
    some 1 := by decide
-- S2, TC19.
theorem test_subReg_borrow : look (exec (.subReg 1 2) (withRegs [(1, 0x39), (2, 0xFF)])) (fun t => (t.reg 1, t.reg 15)) =
    some (0x3A, 0) := by decide
theorem test_subReg_from_flag : look (exec (.subReg 1 15) (withRegs [(1, 5), (15, 1)])) (fun t => (t.reg 1, t.reg 15)) =
    some (4, 1) := by decide
-- TD1.
theorem test_ldI : look (exec (.ldI 0x2F0) State.reset) (fun t => t.index) = some 0x2F0 := by decide
-- TB3, TB4.
theorem test_jpV0_top : look (exec (.jpV0 0xF00) (withRegs [(0, 0xFF)])) (fun t => t.pc) = some 0xFFF := by decide
theorem test_jpV0_bound : look (exec (.jpV0 0xF01) (withRegs [(0, 0xFF)])) faultOf = some (true, 4) := by decide
-- TC20, on a byte drawn.
theorem test_rnd : look (rndWith 0xB7 3 0x0F State.reset) (fun t => t.reg 3) = some 0x07 := by decide
-- TE5, TE13.
theorem test_drw_corner : look (exec (.drw 0 1 1) (withBytes (withXyI 56 31 0x300) 0x300 [0xFF]))
    (fun t => ((List.range 8).map fun k => t.readCell (2040 + k), t.readCell 2039, t.reg 15)) =
    some (List.replicate 8 true, false, 0) := by decide +kernel
theorem test_drw_flag_is_column : look (exec (.drw 15 1 1) (withBytes ((withRegs [(15, 10)]).setIndex 0x300) 0x300 [0x80]))
    (fun t => (t.fb.cell 0 10, t.reg 15)) = some (true, 0) := by decide +kernel
-- TF2: the register holds the old value, the timer one less.
theorem test_ldFromDt : look (exec (.ldFromDt 5) { State.reset with dt := 0x2A })
    (fun t => (t.reg 5, (t.timerCheck true 1).dt)) = some (0x2A, 0x29) := by decide
-- TF4.
theorem test_ldDt : look (exec (.ldDt 3) (withRegs [(3, 0x3C)])) (fun t => (t.dt, (t.timerCheck true 1).dt)) =
    some (0x3C, 0x3B) := by decide
-- TD3, TD4.
theorem test_addI_top : look (exec (.addI 4) ((withRegs [(4, 0xFF)]).setIndex 0xF00)) (fun t => t.index) = some 0xFFF := by decide
theorem test_addI_bound : look (exec (.addI 4) ((withRegs [(4, 1)]).setIndex 0xFFF)) (fun t => (t.fkind, t.index)) =
    some (4, 0xFFF) := by decide
-- TD7.
theorem test_ldF : look (exec (.ldF 0) (withRegs [(0, 0x1A)])) (fun t => t.index) = some 0x032 := by decide
-- S6, TD12.
theorem test_ldB : look (exec (.ldB 0) (withXyI 243 0 0x300)) (fun t => (t.bytesAt 0x300 3, t.index)) =
    some ([2, 4, 3], 0x300) := by decide
theorem test_ldB_glyphs : look (exec (.ldB 0) (withXyI 7 0 0x04F)) (fun t => (t.fkind, t.mem)) = some (4, []) := by decide
-- TD14, TD17.
theorem test_storeRegs : look (exec (.storeRegs 2) ((withRegs [(0, 0x11), (1, 0x22), (2, 0x33), (3, 0x44)]).setIndex 0x400))
    (fun t => (t.bytesAt 0x400 4, t.index)) = some ([0x11, 0x22, 0x33, 0x00], 0x400) := by decide
theorem test_storeRegs_bound : look (exec (.storeRegs 15) ((withRegs [(0, 1)]).setIndex 0xFF1)) (fun t => (t.fkind, t.mem)) =
    some (4, []) := by decide
-- TD19, TD20.
theorem test_loadRegs : look (exec (.loadRegs 2) (withBytes ((withRegs [(3, 0x99)]).setIndex 0x400) 0x400 [0x11, 0x22, 0x33]))
    (fun t => (t.reg 0, t.reg 1, t.reg 2, t.reg 3)) = some (0x11, 0x22, 0x33, 0x99) := by decide
theorem test_loadRegs_glyphs : look (exec (.loadRegs 4) State.reset)
    (fun t => (t.reg 0, t.reg 1, t.reg 2, t.reg 3, t.reg 4)) = some (0xF0, 0x90, 0x90, 0x90, 0xF0) := by decide

/-! The step, load and the memory. -/

/-- A fresh machine whose next fetch is the word `w`. -/
def running (w : Nat) : State := State.reset.withFetchWord 16 w

-- TA13 as a whole step: fetch, decode, execute.
theorem test_step_runs : look (step (running 0x6A12)) (fun t => (t.reg 10, t.pc, t.halt)) = some (0x12, 0x202, false) := by decide
-- TA10, TA1, TG1.
theorem test_step_fetch_bound : look (step (stateAt 0xFFF)) (fun t => (t.fkind, t.finsn, t.faddr)) =
    some (4, 0x0000, 0xFFF) := by decide
theorem test_step_unloaded : look (step State.reset) (fun t => (t.fkind, t.finsn, t.faddr)) = some (1, 0x0000, 0x200) := by decide
-- TG3, TG4.
theorem test_load_clears_halt : ((State.reset.haltedBy 1 0).load 0 [0x12, 0x00]).fetch = .ok 0x1200 ∧
    ((State.reset.haltedBy 1 0).load 0 [0x12, 0x00]).halt = false := by decide
theorem test_load_too_long : (State.reset.load 0 (List.replicate 3585 0x12)).faultStatus = ⟨true, 4, 0, 0x200⟩ := by decide +kernel
-- Writing the value an unlisted address reads as removes the entry.
theorem test_memory_canonical : (Memory.write (Memory.write [] 0x300 5) 0x300 0) = [] := by decide

/-! Witnesses: for each statement with hypotheses, values that meet them, every clause at a boundary. -/

/-- The advance bound: met at 0xFFD, exceeded at 0xFFE. -/
theorem witness_advance_bound : (stateAt 0xFFD).pc.toNat + 2 ≤ 0xFFF ∧ 0xFFF < (stateAt 0xFFE).pc.toNat + 2 := by decide

theorem witness_ClsClearsEveryCell : (stateAt 0xFFD).pc.toNat + 2 ≤ 0xFFF ∧ 0xFFF < (stateAt 0xFFE).pc.toNat + 2 ∧
    (running 0x00E0).nextInstr = some .cls ∧ ∃ u, step (running 0x00E0) = .next u ∧ u.halt = false :=
  ⟨by decide, by decide, by decide, _, rfl, by decide⟩

/-- `SP` 0; a cell at 0x200 with `SP` 1 and 32; a cell at 0xFFD and at 0xFFE. -/
theorem witness_RetReturnsPastTheCall :
    State.reset.sp = 0 ∧
    (∃ (s : State) (a : Addr), s.sp = 32 ∧ s.sp ≠ 0 ∧ s.stack[s.sp.val - 1]? = some a ∧ a.toNat + 2 ≤ 0xFFF) ∧
    (∃ (s : State) (a : Addr), s.sp = 1 ∧ s.stack[s.sp.val - 1]? = some a ∧ a = 0xFFD ∧ a.toNat + 2 ≤ 0xFFF) ∧
    (∃ (s : State) (a : Addr), s.sp ≠ 0 ∧ s.stack[s.sp.val - 1]? = some a ∧ a = 0xFFE ∧ 0xFFF < a.toNat + 2) :=
  ⟨by decide, ⟨{ State.reset with sp := 32 }, 0, by decide⟩,
    ⟨{ State.reset with sp := 1, stack := State.reset.stack.set 0 0xFFD }, 0xFFD, by decide⟩,
    ⟨{ State.reset with sp := 1, stack := State.reset.stack.set 0 0xFFE }, 0xFFE, by decide⟩⟩

theorem witness_CallPushesItsAddress : ({ State.reset with sp := 31 } : State).sp ≠ 32 ∧
    ({ State.reset with sp := 32 } : State).sp = 32 := by decide

theorem witness_SeImmSkipsWhenEqual :
    (stateAt 0xFFB).regs[3] = 0 ∧ (stateAt 0xFFB).pc.toNat + 4 ≤ 0xFFF ∧
    (stateAt 0xFFD).regs[3] ≠ 1 ∧ (stateAt 0xFFD).pc.toNat + 2 ≤ 0xFFF ∧
    (stateAt 0xFFC).regs[3] = 0 ∧ 0xFFF < (stateAt 0xFFC).pc.toNat + 4 ∧
    (stateAt 0xFFE).regs[3] ≠ 1 ∧ 0xFFF < (stateAt 0xFFE).pc.toNat + 2 := by decide

theorem witness_SneImmSkipsWhenDifferent :
    (stateAt 0xFFB).regs[3] ≠ 1 ∧ (stateAt 0xFFB).pc.toNat + 4 ≤ 0xFFF ∧
    (stateAt 0xFFD).regs[3] = 0 ∧ (stateAt 0xFFD).pc.toNat + 2 ≤ 0xFFF ∧
    (stateAt 0xFFC).regs[3] ≠ 1 ∧ 0xFFF < (stateAt 0xFFC).pc.toNat + 4 ∧
    (stateAt 0xFFE).regs[3] = 0 ∧ 0xFFF < (stateAt 0xFFE).pc.toNat + 2 := by decide

/-- A state at `p` whose `x[1]` differs from the other registers. -/
def oneDiffers (p : Addr) : State := (stateAt p).setReg 1 9

theorem witness_SeRegSkipsWhenEqual :
    (oneDiffers 0xFFB).regs[2] = (oneDiffers 0xFFB).regs[3] ∧ (oneDiffers 0xFFB).pc.toNat + 4 ≤ 0xFFF ∧
    (oneDiffers 0xFFD).regs[1] ≠ (oneDiffers 0xFFD).regs[2] ∧ (oneDiffers 0xFFD).pc.toNat + 2 ≤ 0xFFF ∧
    (oneDiffers 0xFFC).regs[2] = (oneDiffers 0xFFC).regs[3] ∧ 0xFFF < (oneDiffers 0xFFC).pc.toNat + 4 ∧
    (oneDiffers 0xFFE).regs[1] ≠ (oneDiffers 0xFFE).regs[2] ∧ 0xFFF < (oneDiffers 0xFFE).pc.toNat + 2 := by decide

theorem witness_SneRegSkipsWhenDifferent :
    (oneDiffers 0xFFB).regs[1] ≠ (oneDiffers 0xFFB).regs[2] ∧ (oneDiffers 0xFFB).pc.toNat + 4 ≤ 0xFFF ∧
    (oneDiffers 0xFFD).regs[2] = (oneDiffers 0xFFD).regs[3] ∧ (oneDiffers 0xFFD).pc.toNat + 2 ≤ 0xFFF ∧
    (oneDiffers 0xFFC).regs[1] ≠ (oneDiffers 0xFFC).regs[2] ∧ 0xFFF < (oneDiffers 0xFFC).pc.toNat + 4 ∧
    (oneDiffers 0xFFE).regs[2] = (oneDiffers 0xFFE).regs[3] ∧ 0xFFF < (oneDiffers 0xFFE).pc.toNat + 2 := by decide

theorem witness_LdImmLoadsImmediate : (stateAt 0xFFD).pc.toNat + 2 ≤ 0xFFF ∧ 0xFFF < (stateAt 0xFFE).pc.toNat + 2 :=
  witness_advance_bound

theorem witness_AddImmWrapsWithoutFlag : (stateAt 0xFFD).pc.toNat + 2 ≤ 0xFFF ∧ 0xFFF < (stateAt 0xFFE).pc.toNat + 2 :=
  witness_advance_bound

theorem witness_LdRegCopiesSecondIntoFirst : (stateAt 0xFFD).pc.toNat + 2 ≤ 0xFFF ∧ 0xFFF < (stateAt 0xFFE).pc.toNat + 2 :=
  witness_advance_bound

theorem witness_OrRegIsBitwiseOr : (stateAt 0xFFD).pc.toNat + 2 ≤ 0xFFF ∧ 0xFFF < (stateAt 0xFFE).pc.toNat + 2 :=
  witness_advance_bound

theorem witness_AndRegIsBitwiseAnd : (stateAt 0xFFD).pc.toNat + 2 ≤ 0xFFF ∧ 0xFFF < (stateAt 0xFFE).pc.toNat + 2 :=
  witness_advance_bound

theorem witness_AddRegSumThenCarry : (stateAt 0xFFD).pc.toNat + 2 ≤ 0xFFF ∧ 0xFFF < (stateAt 0xFFE).pc.toNat + 2 :=
  witness_advance_bound

theorem witness_SubRegDifferenceThenNotBorrow : (stateAt 0xFFD).pc.toNat + 2 ≤ 0xFFF ∧ 0xFFF < (stateAt 0xFFE).pc.toNat + 2 :=
  witness_advance_bound

theorem witness_LdISetsIndex : (stateAt 0xFFD).pc.toNat + 2 ≤ 0xFFF ∧ 0xFFF < (stateAt 0xFFE).pc.toNat + 2 :=
  witness_advance_bound

theorem witness_RndMasksTheDrawnByte : (stateAt 0xFFD).pc.toNat + 2 ≤ 0xFFF ∧ 0xFFF < (stateAt 0xFFE).pc.toNat + 2 :=
  witness_advance_bound

theorem witness_LdFPointsAtGlyph : (stateAt 0xFFD).pc.toNat + 2 ≤ 0xFFF ∧ 0xFFF < (stateAt 0xFFE).pc.toNat + 2 :=
  witness_advance_bound
theorem witness_JpV0AddsRegisterZero :
    (0xF00 : Addr).toNat + (withRegs [(0, 0xFF)]).regs[0].toNat ≤ 0xFFF ∧
    0xFFF < (0xF01 : Addr).toNat + (withRegs [(0, 0xFF)]).regs[0].toNat := by decide

/-- No row with everything else out of range; 15 rows that end in the last row, the last column and the last byte;
one byte, one column and one row too far; the advance bound; a step that draws. -/
theorem witness_DrwCombinesByExclusiveOr :
    (stateAt 0xFFD).pc.toNat + 2 ≤ 0xFFF ∧ 0xFFF < (stateAt 0xFFE).pc.toNat + 2 ∧
    ((withXyI 56 17 0xFF1).index.toNat + 15 - 1 ≤ 0xFFF ∧ (withXyI 56 17 0xFF1).regs[0].toNat + 7 ≤ 63 ∧
      (withXyI 56 17 0xFF1).regs[1].toNat + 15 - 1 ≤ 31) ∧
    0xFFF < (withXyI 0 0 0xFF2).index.toNat + 15 - 1 ∧ 63 < (withXyI 57 0 0).regs[0].toNat + 7 ∧
    31 < (withXyI 0 18 0).regs[1].toNat + 15 - 1 ∧
    (running 0xD011).nextInstr = some (.drw 0 1 1) ∧ ∃ u, step (running 0xD011) = .next u ∧ u.halt = false :=
  ⟨by decide, by decide, by decide, by decide, by decide, by decide, by decide, _, rfl, by decide +kernel⟩

theorem witness_LdFromDtReadsTimer : (stateAt 0xFFD).pc.toNat + 2 ≤ 0xFFF ∧ 0xFFF < (stateAt 0xFFE).pc.toNat + 2 ∧
    ∃ u, exec (.ldFromDt 0) (stateAt 0xFFD) = .next u := ⟨by decide, by decide, _, rfl⟩

theorem witness_LdDtSetsTimer : (stateAt 0xFFD).pc.toNat + 2 ≤ 0xFFF ∧ 0xFFF < (stateAt 0xFFE).pc.toNat + 2 ∧
    ∃ u, exec (.ldDt 0) (stateAt 0xFFD) = .next u := ⟨by decide, by decide, _, rfl⟩

theorem witness_AddIAddsOrFaults : (stateAt 0xFFD).pc.toNat + 2 ≤ 0xFFF ∧
    (withXyI 0xFF 0 0xF00).index.toNat + (withXyI 0xFF 0 0xF00).regs[0].toNat ≤ 0xFFF ∧
    0xFFF < (withXyI 1 0 0xFFF).index.toNat + (withXyI 1 0 0xFFF).regs[0].toNat ∧
    0xFFF < (stateAt 0xFFE).pc.toNat + 2 := by decide

/-- The lowest and the highest legal base, one below and one above. -/
theorem witness_LdBStoresDecimalDigits : State.reset.mem.wf = true ∧ State.reset.pc.toNat + 2 ≤ 0xFFF ∧
    (withXyI 0 0 0x050).index.toNat + 2 ≤ 0xFFF ∧ 0x04F < (withXyI 0 0 0x050).index.toNat ∧
    (withXyI 0 0 0xFFD).index.toNat + 2 ≤ 0xFFF ∧ 0x04F < (withXyI 0 0 0xFFD).index.toNat ∧
    0xFFF < (withXyI 0 0 0xFFE).index.toNat + 2 ∧ (withXyI 0 0 0x04F).index.toNat ≤ 0x04F ∧
    0xFFF < (stateAt 0xFFE).pc.toNat + 2 := by decide

theorem witness_StoreRegsStoresRegisters : State.reset.mem.wf = true ∧ State.reset.pc.toNat + 2 ≤ 0xFFF ∧
    (withXyI 0 0 0x050).index.toNat + 15 ≤ 0xFFF ∧ 0x04F < (withXyI 0 0 0x050).index.toNat ∧
    (withXyI 0 0 0xFF0).index.toNat + 15 ≤ 0xFFF ∧ 0x04F < (withXyI 0 0 0xFF0).index.toNat ∧
    0xFFF < (withXyI 0 0 0xFF1).index.toNat + 15 ∧ (withXyI 0 0 0x04F).index.toNat ≤ 0x04F ∧
    0xFFF < (stateAt 0xFFE).pc.toNat + 2 := by decide

theorem witness_LoadRegsLoadsRegisters : State.reset.pc.toNat + 2 ≤ 0xFFF ∧
    (withXyI 0 0 0xFF0).index.toNat + 15 ≤ 0xFFF ∧ 0xFFF < (withXyI 0 0 0xFF1).index.toNat + 15 ∧
    0xFFF < (stateAt 0xFFE).pc.toNat + 2 := by decide

theorem witness_DecodeOfEncodeIsTheInstruction : (Instr.drw 15 15 15).wellFormed = true := by decide

theorem witness_EncodeOfDecodedWordIsTheWord : decodeWord 0xDFFF = .ok (.drw 15 15 15) := by decide

theorem witness_DecodeSelectsTheOneMatchingRow : decodeWord 0x00E0 = .ok .cls ∧ (∃ r ∈ opcodeRows, r.covers 0x00E0 = true) ∧
    ∀ r ∈ opcodeRows, r.covers 0x00E1 = false := by decide

/-- A step that completes and one that faults. -/
theorem witness_StepRunsTheDecodedInstruction :
    (∃ t, (running 0x6A12).halt = false ∧ (running 0x6A12).pc.toNat + 1 ≤ 0xFFF ∧
      decode [(running 0x6A12).readByte 0x200, (running 0x6A12).readByte 0x201] = .ok (.ldImm 10 0x12, []) ∧
      exec (.ldImm 10 0x12) (running 0x6A12) = .next t ∧ t.halt = false) ∧
    (∃ t, (running 0x00EE).halt = false ∧ (running 0x00EE).pc.toNat + 1 ≤ 0xFFF ∧
      decode [(running 0x00EE).readByte 0x200, (running 0x00EE).readByte 0x201] = .ok (.ret, []) ∧
      exec .ret (running 0x00EE) = .next t ∧ t.halt = true) :=
  ⟨⟨_, by decide, by decide, by decide, rfl, by decide⟩, ⟨_, by decide, by decide, by decide, rfl, by decide⟩⟩

theorem witness_FetchReadsTwoBytesOrFaults : (stateAt 0xFFE).pc ≠ 0xFFF ∧ (stateAt 0xFFF).pc = 0xFFF ∧
    (stateAt 0xFFF).halt = false := by decide

theorem witness_UnsupportedWordHalts : (running 0x8126).halt = false ∧ (running 0x8126).fetch = .ok 0x8126 ∧
    ∀ r ∈ opcodeRows, r.covers 0x8126 = false := by decide

/-- Halted machines; the two operations that clear `HALT`. -/
theorem witness_HaltedMachineDoesNothing : (State.reset.haltedBy 1 0).halt = true ∧
    (∃ t, hostOp (.load 0 []) (State.reset.haltedBy 1 0) = .next t ∧ t.halt = false) ∧
    (∃ t, hostOp (.construct Config.defaultGlyphs 0) (State.reset.haltedBy 1 0) = .next t ∧ t.halt = false) :=
  ⟨by decide, ⟨_, rfl, by decide⟩, ⟨_, rfl, by decide⟩⟩

/-- A fault of the fetch and one after it. -/
theorem witness_FaultsArePrecise :
    (∃ t, (stateAt 0xFFF).halt = false ∧ step (stateAt 0xFFF) = .next t ∧ t.halt = true ∧
      (stateAt 0xFFF).fetch = .error .outOfBoundsAccess) ∧
    (∃ t, (running 0x00EE).halt = false ∧ step (running 0x00EE) = .next t ∧ t.halt = true ∧
      (running 0x00EE).fetch = .ok 0x00EE) :=
  ⟨⟨_, by decide, rfl, by decide, by decide⟩, ⟨_, by decide, rfl, by decide, by decide⟩⟩

/-- A state with something in Memory that meets the invariant. -/
theorem inv_witness : (running 0x2500).Inv :=
  ⟨by decide, by decide, rfl, fun _ => ⟨rfl, rfl, rfl⟩, fun h => by cases h⟩

theorem witness_StepKeepsInvariant : (running 0x2500).Inv ∧ ∃ t, step (running 0x2500) = .next t ∧ t.halt = false :=
  ⟨inv_witness, _, rfl, by decide⟩

theorem witness_HostOperationsKeepInvariant : (running 0x2500).Inv ∧
    (∃ t, hostOp (.load 7 [0x12, 0x00]) (running 0x2500) = .next t) ∧ (∃ t, hostOp .step (running 0x2500) = .next t) ∧
    (∃ t, hostOp (.keyDown 15) (running 0x2500) = .next t) :=
  ⟨inv_witness, ⟨_, rfl⟩, ⟨_, rfl⟩, ⟨_, rfl⟩⟩

theorem witness_GlyphTableNeverChanges : (79 < Config.glyphBytes) ∧
    (∀ (g : Vector Byte Config.glyphBytes) (now : Nat), HostOp.step ≠ .construct g now) ∧
    ∃ t, hostOp .step (running 0xF055) = .next t :=
  ⟨by decide, (fun _ _ h => by cases h), _, rfl⟩

/-- A step that is no `LD DT, Vx`, with both timers running. -/
theorem witness_TimersCountDownToZero : ∃ t, step { running 0x6A12 with dt := 1, st := 1 } = .next t ∧
    ∀ x, State.nextInstr { running 0x6A12 with dt := 1, st := 1 } ≠ some (.ldDt x) :=
  ⟨_, rfl, by decide⟩

/-- A completed step that is no `LD DT, Vx`; a check exactly 1/60 of a second after `TREF`, and one before `TREF`. -/
theorem witness_GateKeepsItsReference : (∃ t, Completes (running 0x6A12) t) ∧
    (∀ x, (running 0x6A12).nextInstr ≠ some (.ldDt x)) ∧ State.reset.tref + Config.sixtieth ≤ Config.sixtieth ∧
    0 < ({ State.reset with tref := 1 } : State).tref + Config.sixtieth :=
  ⟨⟨_, by decide, rfl, by decide⟩, by decide, by simp [State.reset, State.construct], by simp⟩

/-- A register that is no destination, in a step that completes and in one that faults. -/
theorem witness_RegistersFrame : writesReg (.addReg 1 2) 2 = false ∧
    (∃ t, exec (.addReg 1 2) State.reset = .next t ∧ t.halt = false) ∧
    (∃ t, exec (.addReg 1 2) (stateAt 0xFFE) = .next t ∧ t.halt = true) :=
  ⟨by decide, ⟨_, rfl, by decide⟩, ⟨_, rfl, by decide⟩⟩

/-- The bytes next to a stored range, below and above. -/
theorem witness_MemoryFrame : (∃ t, exec (.storeRegs 2) (withXyI 1 2 0x400) = .next t ∧ t.halt = false) ∧
    0x3FF < (withXyI 1 2 0x400).index.toNat ∧ (withXyI 1 2 0x400).index.toNat + storedBytes (.storeRegs 2) ≤ 0x403 :=
  ⟨⟨_, rfl, by decide⟩, by decide, by decide⟩

theorem witness_SpecialStateFrame : (∃ t, exec .cls State.reset = .next t ∧ t.halt = false) ∧
    (∃ t, exec .ret State.reset = .next t ∧ t.halt = true) ∧
    (∀ nnn, Instr.cls ≠ .ldI nnn) ∧ (∀ x, Instr.cls ≠ .addI x) ∧ (∀ x, Instr.cls ≠ .ldF x) ∧
    (∀ nnn, Instr.cls ≠ .call nnn) ∧ Instr.cls ≠ .ret ∧ Instr.ret ≠ .cls ∧ (∀ x y n, Instr.ret ≠ .drw x y n) ∧
    (∀ x, Instr.cls ≠ .ldDt x) :=
  ⟨⟨_, rfl, by decide⟩, ⟨_, rfl, by decide⟩, by simp⟩

theorem witness_PcMovesAsListed : State.reset.halt = false ∧ ∃ t, exec (.jpV0 0xF00) (withRegs [(0, 0xFF)]) = .next t ∧
    t.halt = false := ⟨by decide, _, rfl, by decide⟩

/-- A skip over the bytes 0x00 0x00 and over the bytes 0xFF 0xFF: the same fetch. -/
theorem witness_SkipIgnoresTheSkippedBytes : (running 0x3000).nextInstr = some (.seImm 0 0) ∧
    State.fetch { running 0x3000 with mem := (running 0x3000).mem.writeAll 0x202 [0xFF, 0xFF] } = (running 0x3000).fetch ∧
    ∃ t, step (running 0x3000) = .next t := ⟨by decide, by decide, _, rfl⟩

theorem witness_CallThenReturnComesBack : State.reset.sp ≠ 32 ∧ (stateAt 0xFFD).pc.toNat + 2 ≤ 0xFFF ∧
    ∃ t, exec (.call 0x500) (stateAt 0xFFD) = .next t ∧ ∃ u : State, u.sp = t.sp ∧ u.stack = t.stack ∧ u.pc = 0x500 :=
  ⟨by decide, by decide, _, rfl, _, rfl, rfl, rfl⟩

theorem witness_StoreThenLoadGivesTheRegisters : State.reset.mem.wf = true ∧ State.reset.halt = false ∧
    ∃ t, exec (.storeRegs 15) (withXyI 1 2 0xFF0) = .next t ∧ t.halt = false ∧
      ∃ u : State, u.mem = t.mem ∧ u.glyphs = t.glyphs ∧ u.index = 0xFF0 ∧ u.pc.toNat + 2 ≤ 0xFFF :=
  ⟨by decide, by decide, _, rfl, by decide, _, rfl, rfl, by decide, by decide⟩

/-- A block store of two registers over the two bytes that follow it (program P6 of the spec). -/
theorem witness_NextFetchSeesTheStore : (running 0xF155).mem.wf = true ∧ (running 0xF155).halt = false ∧
    State.nextInstr { running 0xF155 with index := 0x202 } = some (.storeRegs 1) ∧
    (0x202 : Addr).toNat = (running 0xF155).pc.toNat + 2 ∧
    ∃ t, step { running 0xF155 with index := 0x202 } = .next t ∧ t.halt = false :=
  ⟨by decide, by decide, by decide, by decide, _, rfl, by decide⟩

theorem witness_DrawingTwiceRestores : (0 : RegIx) ≠ flagReg ∧ (1 : RegIx) ≠ flagReg ∧
    ({ withXyI 56 31 0x300 with pc := 0xFFB } : State).halt = false ∧
    ({ withXyI 56 31 0x300 with pc := 0xFFB } : State).pc.toNat + 4 ≤ 0xFFF ∧
    ∃ t, exec (.drw 0 1 1) { withXyI 56 31 0x300 with pc := 0xFFB } = .next t ∧ t.halt = false :=
  ⟨by decide, by decide, by decide, by decide, _, rfl, by decide +kernel⟩

theorem witness_LoadResetsAndCopies : (List.replicate 3584 (0x12 : Byte)).length ≤ 3584 ∧
    3584 < (List.replicate 3585 (0x12 : Byte)).length ∧ 3583 < (List.replicate 3584 (0x12 : Byte)).length ∧
    (80 ≤ 80 ∧ 80 < 0x200) ∧ (0x200 + 2 ≤ 0x202 ∧ ([0x12, 0x00] : List Byte).length = 2) := by
  simp only [List.length_replicate]; decide

theorem witness_KeysNeverInfluenceARun : ∃ t, step (running 0x6A12) = .next t ∧ t.halt = false := ⟨_, rfl, by decide⟩

theorem witness_OnlyRndReadsTheRandomByte : (∀ x nn, Instr.cls ≠ .rnd x nn) ∧ ∃ t, exec .cls State.reset = .next t :=
  ⟨by simp, _, rfl⟩

/-- A step that raises `redraw` and one that does not. -/
theorem witness_RedrawOnlyForClsAndDrw :
    (∃ t, step (running 0x00E0) = .next t ∧ t.halt = false ∧ (running 0x00E0).nextInstr = some .cls) ∧
    (∃ t, step (running 0x6A12) = .next t ∧ (stepOutputs (running 0x6A12) t).redraw = false) :=
  ⟨⟨_, rfl, by decide, by decide⟩, ⟨_, rfl, by decide⟩⟩

theorem witness_JumpToItselfSpins : (running 0x1200).nextInstr = some (.jp (running 0x1200).pc) := by decide

end Sys2Proof.Tests
end

/-! The phases of a step (40_step_cycle.md section 2): what the decoder answers is the instruction of the word it was
given, so that a word of no row of the opcode table (30_encoding.md R65) is refused, and the step refuses with it. -/

namespace Sys2Proof

/-- A format R or D word, put together from the nibbles its registers came from (R63). -/
theorem wordR_regField (op x y n : Nibble) : wordR op (regField x) (regField y) n = op ++ x ++ y ++ n := rfl

/-- The instruction four nibbles match is encoded as those nibbles: a pattern drops none of them (R65). -/
theorem encodeWord_of_decodeNibbles {a b c d : Nibble} {i : Instr} (h : decodeNibbles a b c d = some i) :
    encodeWord i = a ++ b ++ c ++ d := by
  unfold decodeNibbles at h
  split at h <;> cases h
  -- `CLS` and `RET`, then formats A, I, R, D and F of R63
  case h_1 | h_2 => rfl
  case h_3 | h_4 | h_16 | h_17 => exact wordA_addrField _ _ _ _
  case h_5 | h_6 | h_8 | h_9 | h_18 => exact wordI_immField _ _ _ _
  case h_7 | h_10 | h_11 | h_12 | h_13 | h_14 | h_15 => exact wordR_regField _ _ _ _
  case h_19 =>
    rw [encodeWord, BitVec.ofNat_toNat, BitVec.setWidth_eq]
    exact wordR_regField _ _ _ _
  case h_20 | h_21 | h_22 | h_23 | h_24 | h_25 | h_26 => exact wordF_eq _ _

/-- The instruction a word decodes to is encoded as that word (R65, R66). -/
theorem encodeWord_of_decodeWord {w : Word} {i : Instr} (h : decodeWord w = .ok i) : encodeWord i = w := by
  rw [← append_nibbles w, decodeWord_append] at h
  split at h
  next j hj =>
    cases h
    rw [encodeWord_of_decodeNibbles hj, append_nibbles]
  next => cases h

/-- Every instruction's word belongs to its row, and the row is one of the table's 26 (R65). -/
theorem row_covers_encodeWord (i : Instr) : i.row ∈ opcodeRows ∧ i.row.covers (encodeWord i) = true :=
  match i with
  | .cls => Laws.InRow.cls
  | .ret => Laws.InRow.ret
  | .jp nnn => Laws.InRow.jp nnn
  | .call nnn => Laws.InRow.call nnn
  | .seImm x nn => Laws.InRow.seImm x nn
  | .sneImm x nn => Laws.InRow.sneImm x nn
  | .seReg x y => Laws.InRow.seReg x y
  | .ldImm x nn => Laws.InRow.ldImm x nn
  | .addImm x nn => Laws.InRow.addImm x nn
  | .ldReg x y => Laws.InRow.ldReg x y
  | .orReg x y => Laws.InRow.orReg x y
  | .andReg x y => Laws.InRow.andReg x y
  | .addReg x y => Laws.InRow.addReg x y
  | .subReg x y => Laws.InRow.subReg x y
  | .sneReg x y => Laws.InRow.sneReg x y
  | .ldI nnn => Laws.InRow.ldI nnn
  | .jpV0 nnn => Laws.InRow.jpV0 nnn
  | .rnd x nn => Laws.InRow.rnd x nn
  | .drw x y n => Laws.InRow.drw x y n
  | .ldFromDt x => Laws.InRow.ldFromDt x
  | .ldDt x => Laws.InRow.ldDt x
  | .addI x => Laws.InRow.addI x
  | .ldF x => Laws.InRow.ldF x
  | .ldB x => Laws.InRow.ldB x
  | .storeRegs x => Laws.InRow.storeRegs x
  | .loadRegs x => Laws.InRow.loadRegs x

/-- A word the decoder takes is covered by a row of the table, that of its instruction (R65, R66). -/
theorem row_covers_of_decodeWord {w : Word} {i : Instr} (h : decodeWord w = .ok i) :
    i.row ∈ opcodeRows ∧ i.row.covers w = true := by
  simpa only [encodeWord_of_decodeWord h] using row_covers_encodeWord i

/-- A word no row of the table covers is one the decoder refuses (R67). -/
theorem decodeWord_error_of_uncovered {w : Word} (h : ∀ r ∈ opcodeRows, r.covers w = false) :
    ∃ e, decodeWord w = .error e := by
  cases hd : decodeWord w with
  | error e => exact ⟨e, rfl⟩
  | ok i =>
    obtain ⟨hmem, hcov⟩ := row_covers_of_decodeWord hd
    rw [h _ hmem] at hcov
    cases hcov

namespace Machine

/-- The state that takes UnsupportedOpcode is the one whose fault status alone is written, with code 1 (R205, R206). -/
theorem State.enterFault_unsupportedOpcode (s : State) (w : Word) :
    s.enterFault .unsupportedOpcode w = s.haltedBy 1 w := rfl

/-- A running machine takes UnsupportedOpcode at a word the decoder refuses (R84). -/
theorem step_of_decodeWord_error {s : State} {w : Word} {e : DecodeError} (h : s.halt = false)
    (hf : s.fetch = .ok w) (hd : decodeWord w = .error e) : step s = .next (s.enterFault .unsupportedOpcode w) := by
  simp [step, h, hf, hd]

/-- Settles O34: the decoder takes only words a row covers, so the step ends in its decode phase, with the fault. -/
theorem unsupportedWordHalts : Obligations.UnsupportedWordHalts := by
  intro s w hrun hfetch huncovered
  obtain ⟨e, hd⟩ := decodeWord_error_of_uncovered huncovered
  rw [step_of_decodeWord_error hrun hfetch hd, State.enterFault_unsupportedOpcode]

end Machine

end Sys2Proof

/-! Decoding an instruction's own word (30_encoding.md R63, R65): one lemma per format, then the table row by row. -/

namespace Sys2Proof

/-- A word put together from nibbles that match a row decodes to that row's instruction (R62, R65). -/
theorem decodeWord_of_decodeNibbles {a b c d : Nibble} {i : Instr} (h : decodeNibbles a b c d = some i) :
    decodeWord (a ++ b ++ c ++ d) = .ok i := by
  rw [decodeWord_append, h]

/-- Format A: the last three nibbles are the address (R63). -/
theorem decodeWord_wordA {op : Nibble} {f : Addr → Instr}
    (hrow : ∀ a b c, decodeNibbles op a b c = some (f (addrField a b c))) (nnn : Addr) :
    decodeWord (wordA op nnn) = .ok (f nnn) := by
  rw [wordA_eq, decodeWord_of_decodeNibbles (hrow _ _ _), addrField_nibbles]

/-- Format I: the second nibble is the register, the last two are the immediate (R63). -/
theorem decodeWord_wordI {op : Nibble} {f : RegIx → Byte → Instr}
    (hrow : ∀ x a b, decodeNibbles op x a b = some (f (regField x) (immField a b))) (x : RegIx) (nn : Byte) :
    decodeWord (wordI op x nn) = .ok (f x nn) := by
  rw [wordI_eq, decodeWord_of_decodeNibbles (hrow _ _ _), immField_nibbles, regField_regNibble]

/-- Formats R and D: the middle nibbles are the registers (R63). -/
theorem decodeWord_wordR {op n : Nibble} {f : RegIx → RegIx → Instr}
    (hrow : ∀ x y, decodeNibbles op x y n = some (f (regField x) (regField y))) (x y : RegIx) :
    decodeWord (wordR op x y n) = .ok (f x y) :=
  decodeWord_of_decodeNibbles (hrow (regNibble x) (regNibble y))

/-- Format F: the second nibble is the register, the second byte is literal (R63). -/
theorem decodeWord_wordF {fn : Byte} {f : RegIx → Instr}
    (hrow : ∀ x, decodeNibbles 0xF#4 x (fn.extractLsb' 4 4) (fn.extractLsb' 0 4) = some (f (regField x)))
    (x : RegIx) : decodeWord (wordF x fn) = .ok (f x) := by
  rw [wordF_eq, decodeWord_of_decodeNibbles (hrow _), regField_regNibble]

/-- The word of a well-formed instruction decodes to that instruction (R65). -/
theorem decodeWord_encodeWord (i : Instr) (hi : i.wellFormed = true) : decodeWord (encodeWord i) = .ok i :=
  match i with
  | .cls => by decide
  | .ret => by decide
  | .jp nnn => decodeWord_wordA (fun _ _ _ => rfl) nnn
  | .call nnn => decodeWord_wordA (fun _ _ _ => rfl) nnn
  | .seImm x nn => decodeWord_wordI (fun _ _ _ => rfl) x nn
  | .sneImm x nn => decodeWord_wordI (fun _ _ _ => rfl) x nn
  | .seReg x y => decodeWord_wordR (fun _ _ => rfl) x y
  | .ldImm x nn => decodeWord_wordI (fun _ _ _ => rfl) x nn
  | .addImm x nn => decodeWord_wordI (fun _ _ _ => rfl) x nn
  | .ldReg x y => decodeWord_wordR (fun _ _ => rfl) x y
  | .orReg x y => decodeWord_wordR (fun _ _ => rfl) x y
  | .andReg x y => decodeWord_wordR (fun _ _ => rfl) x y
  | .addReg x y => decodeWord_wordR (fun _ _ => rfl) x y
  | .subReg x y => decodeWord_wordR (fun _ _ => rfl) x y
  | .sneReg x y => decodeWord_wordR (fun _ _ => rfl) x y
  | .ldI nnn => decodeWord_wordA (fun _ _ _ => rfl) nnn
  | .jpV0 nnn => decodeWord_wordA (fun _ _ _ => rfl) nnn
  | .rnd x nn => decodeWord_wordI (fun _ _ _ => rfl) x nn
  | .drw x y n => by
    have hn : (BitVec.ofNat 4 n).toNat = n := by simpa [Instr.wellFormed] using hi
    have hrow (a b : Nibble) : decodeNibbles 0xD a b (BitVec.ofNat 4 n) = some (.drw (regField a) (regField b) n) := by
      change some (Instr.drw _ _ (BitVec.ofNat 4 n).toNat) = _
      rw [hn]
    exact decodeWord_wordR (f := fun x y => .drw x y n) hrow x y
  | .ldFromDt x => decodeWord_wordF (fun _ => rfl) x
  | .ldDt x => decodeWord_wordF (fun _ => rfl) x
  | .addI x => decodeWord_wordF (fun _ => rfl) x
  | .ldF x => decodeWord_wordF (fun _ => rfl) x
  | .ldB x => decodeWord_wordF (fun _ => rfl) x
  | .storeRegs x => decodeWord_wordF (fun _ => rfl) x
  | .loadRegs x => decodeWord_wordF (fun _ => rfl) x

end Sys2Proof

/-! The control-flow instructions (41_control_flow.md R100 to R108). -/

namespace Sys2Proof.Machine

/-! The meaning of each, through the shared operations. -/

section
variable (s : State) (x y : RegIx) (nn : Byte) (nnn : Addr)

theorem exec_ret : exec .ret s = orRaise .ret s s.pop fun r => commitPc .ret s r.2 (r.1.toNat + 2) := rfl
theorem exec_jp : exec (.jp nnn) s = commitPc (.jp nnn) s s nnn.toNat := rfl
theorem exec_call :
    exec (.call nnn) s = orRaise (.call nnn) s (s.push s.pc) fun t => commitPc (.call nnn) s t nnn.toNat := rfl
theorem exec_seImm : exec (.seImm x nn) s = skipIf (.seImm x nn) s (s.reg x == nn) := rfl
theorem exec_sneImm : exec (.sneImm x nn) s = skipIf (.sneImm x nn) s (s.reg x != nn) := rfl
theorem exec_seReg : exec (.seReg x y) s = skipIf (.seReg x y) s (s.reg x == s.reg y) := rfl
theorem exec_sneReg : exec (.sneReg x y) s = skipIf (.sneReg x y) s (s.reg x != s.reg y) := rfl
theorem exec_jpV0 : exec (.jpV0 nnn) s = commitPc (.jpV0 nnn) s s (nnn.toNat + (s.reg 0).toNat) := rfl

end

/-! A commit, in the terms of the statements. -/

/-- A new `pc` above 0xFFF halts the machine with code 4 and commits nothing (R85, R87). -/
theorem commitPc_eq_haltedBy {i : Instr} {s t : State} {v : Nat} (h : 0xFFF < v) :
    commitPc i s t v = .next (s.haltedBy 4 (encodeWord i)) := commitPc_of_gt h

/-- A commit in bounds of a `pc` that is a sum (R85). -/
theorem commitPc_plus {i : Instr} {s t : State} {a : Addr} {k : Nat} (h : a.toNat + k ≤ 0xFFF) :
    commitPc i s t (a.toNat + k) = .next (t.setPc (a + BitVec.ofNat 12 k)) := by
  rw [commitPc_of_le h, pc_plus]

/-- A jump to an address is always in bounds (R100). -/
theorem commitPc_toNat (i : Instr) (s t : State) (a : Addr) : commitPc i s t a.toNat = .next (t.setPc a) := by
  rw [commitPc_of_le (Nat.le_of_lt_succ a.isLt), BitVec.ofNat_toNat, BitVec.setWidth_eq]

/-! The stack, by what `SP` and the most recent cell hold. -/

/-- A push onto a full stack overflows (R203). -/
theorem State.push_of_full {s : State} (v : Addr) (h : s.sp = 32) : s.push v = .error .stackOverflow := by
  cases hp : s.push v with
  | error k => rw [(State.push_error hp).1]
  | ok t =>
    obtain ⟨hlt, -⟩ := State.push_ok hp
    simp [h] at hlt

/-- A push with room writes the cell at the old `SP` and raises `SP` (R102). -/
theorem State.push_of_room {s : State} (v : Addr) (h : s.sp ≠ 32) :
    s.push v = .ok { s with stack := s.stack.setIfInBounds s.sp.val v, sp := s.sp + 1 } := by
  cases hp : s.push v with
  | error k => exact absurd (Fin.ext (State.push_error hp).2) h
  | ok t =>
    obtain ⟨hlt, rfl⟩ := State.push_ok hp
    have hsp : s.sp + 1 = ⟨s.sp.val + 1, Nat.succ_lt_succ hlt⟩ :=
      Fin.ext (Fin.val_add_one_of_lt' (Nat.succ_lt_succ hlt))
    have hstack : s.stack.setIfInBounds s.sp.val v = s.stack.set s.sp.val v := by
      ext k hk
      rw [Vector.getElem_setIfInBounds, Vector.getElem_set]
    rw [hsp, hstack]

/-- A pop of an empty stack underflows (R202). -/
theorem State.pop_of_empty {s : State} (h : s.sp = 0) : s.pop = .error .stackUnderflow := by
  cases hp : s.pop with
  | error k => rw [(State.pop_error hp).1]
  | ok r =>
    obtain ⟨hpos, -⟩ := State.pop_ok hp
    simp [h] at hpos

/-- A pop with a cell in use gives the most recent cell and lowers `SP` (R103). -/
theorem State.pop_of_cell {s : State} {a : Addr} (h : s.sp ≠ 0) (ha : s.stack[s.sp.val - 1]? = some a) :
    s.pop = .ok (a, { s with sp := s.sp - 1 }) := by
  cases hp : s.pop with
  | error k => exact absurd (Fin.ext (State.pop_error hp).2) h
  | ok r =>
    obtain ⟨b, t⟩ := r
    obtain ⟨hpos, hb, hlt, rfl⟩ := State.pop_ok hp
    have hsp : s.sp - 1 = ⟨s.sp.val - 1, hlt⟩ :=
      Fin.ext (Fin.sub_val_of_le (Nat.succ_le_of_lt hpos))
    rw [ha] at hb
    cases hb
    rw [hsp]

/-! RET, JP, CALL and JP V0. -/

/-- Settles O2: the pop answers by what `SP` holds, and the return address is then committed or faults. -/
theorem retReturnsPastTheCall : Obligations.RetReturnsPastTheCall := by
  intro s
  refine ⟨decodeWord_encodeWord .ret rfl, fun hsp => ?_, fun a hsp ha => ?_⟩
  · rw [exec_ret, State.pop_of_empty hsp, orRaise_error]
    rfl
  · rw [exec_ret, State.pop_of_cell hsp ha, orRaise_ok]
    exact ⟨commitPc_plus, commitPc_eq_haltedBy⟩

/-- Settles O3: a 12-bit address is never out of bounds. -/
theorem jpSetsPc : Obligations.JpSetsPc := by
  intro nnn s
  rw [exec_jp, commitPc_toNat]
  exact ⟨decodeWord_encodeWord (.jp nnn) rfl, rfl⟩

/-- Settles O4: the push answers by what `SP` holds, and the jump after it is always in bounds. -/
theorem callPushesItsAddress : Obligations.CallPushesItsAddress := by
  intro nnn s
  refine ⟨decodeWord_encodeWord (.call nnn) rfl, fun hsp => ?_, fun hsp => ?_⟩
  · rw [exec_call, State.push_of_room _ hsp, orRaise_ok, commitPc_toNat]
    rfl
  · rw [exec_call, State.push_of_full _ hsp, orRaise_error]
    rfl

/-- Settles O17: the sum is committed as it is, or faults above 0xFFF. -/
theorem jpV0AddsRegisterZero : Obligations.JpV0AddsRegisterZero := by
  intro nnn s
  rw [exec_jpV0]
  exact ⟨decodeWord_encodeWord (.jpV0 nnn) rfl, commitPc_of_le, commitPc_eq_haltedBy⟩

/-! The four skips. -/

section
variable {i : Instr} {s : State} {c : Bool} {p q : Prop}

/-- What an instruction whose meaning is a skip does, `p` and `q` being the conditions under which it moves by 4
and by 2: it moves `pc` alone, or faults where the chosen new `pc` is out of bounds (R85, R108). -/
theorem exec_of_skipIf (hexec : exec i s = skipIf i s c) (hp : p → c = true) (hq : q → c = false) :
    (p → s.pc.toNat + 4 ≤ 0xFFF → exec i s = .next { s with pc := s.pc + 4 }) ∧
    (q → s.pc.toNat + 2 ≤ 0xFFF → exec i s = .next { s with pc := s.pc + 2 }) ∧
    (p → 0xFFF < s.pc.toNat + 4 → exec i s = .next (s.haltedBy 4 (encodeWord i))) ∧
    (q → 0xFFF < s.pc.toNat + 2 → exec i s = .next (s.haltedBy 4 (encodeWord i))) := by
  have h4 (h : p) : exec i s = commitPc i s s (s.pc.toNat + 4) := by rw [hexec, hp h]; rfl
  have h2 (h : q) : exec i s = commitPc i s s (s.pc.toNat + 2) := by rw [hexec, hq h]; rfl
  exact ⟨fun h hb => (h4 h).trans (commitPc_plus hb), fun h hb => (h2 h).trans (commitPc_plus hb),
    fun h hb => (h4 h).trans (commitPc_eq_haltedBy hb), fun h hb => (h2 h).trans (commitPc_eq_haltedBy hb)⟩

end

/-- Settles O5: the skip's condition is `x[X] = NN`. -/
theorem seImmSkipsWhenEqual : Obligations.SeImmSkipsWhenEqual := fun x nn s =>
  ⟨decodeWord_encodeWord (.seImm x nn) rfl,
    exec_of_skipIf (exec_seImm s x nn) beq_iff_eq.mpr beq_eq_false_iff_ne.mpr⟩

/-- Settles O6: the skip's condition is `x[X] ≠ NN`. -/
theorem sneImmSkipsWhenDifferent : Obligations.SneImmSkipsWhenDifferent := fun x nn s =>
  ⟨decodeWord_encodeWord (.sneImm x nn) rfl,
    exec_of_skipIf (exec_sneImm s x nn) bne_iff_ne.mpr bne_eq_false_iff_eq.mpr⟩

/-- Settles O7: the skip's condition is `x[X] = x[Y]`. -/
theorem seRegSkipsWhenEqual : Obligations.SeRegSkipsWhenEqual := fun x y s =>
  ⟨decodeWord_encodeWord (.seReg x y) rfl,
    exec_of_skipIf (exec_seReg s x y) beq_iff_eq.mpr beq_eq_false_iff_ne.mpr⟩

/-- Settles O15: the skip's condition is `x[X] ≠ x[Y]`. -/
theorem sneRegSkipsWhenDifferent : Obligations.SneRegSkipsWhenDifferent := fun x y s =>
  ⟨decodeWord_encodeWord (.sneReg x y) rfl,
    exec_of_skipIf (exec_sneReg s x y) bne_iff_ne.mpr bne_eq_false_iff_eq.mpr⟩

end Sys2Proof.Machine

/-! The register and arithmetic instructions (42_alu.md R120 to R129). -/

namespace Sys2Proof.Machine

/-! The meaning of each: the generic advance with one register written, or a register and then the flag. -/

section
variable (s : State) (x y : RegIx) (nn : Byte)

theorem exec_ldImm : exec (.ldImm x nn) s = advance (.ldImm x nn) s (s.setReg x nn) := rfl
theorem exec_addImm : exec (.addImm x nn) s = advance (.addImm x nn) s (s.setReg x (s.reg x + nn)) := rfl
theorem exec_orReg : exec (.orReg x y) s = advance (.orReg x y) s (s.setReg x (s.reg x ||| s.reg y)) := rfl
theorem exec_andReg : exec (.andReg x y) s = advance (.andReg x y) s (s.setReg x (s.reg x &&& s.reg y)) := rfl
theorem exec_addReg : exec (.addReg x y) s =
    advance (.addReg x y) s (s.setRegThenFlag x (s.reg x + s.reg y) (carryFlag (s.reg x) (s.reg y))) := rfl
theorem exec_subReg : exec (.subReg x y) s =
    advance (.subReg x y) s (s.setRegThenFlag x (s.reg x - s.reg y) (notBorrowFlag (s.reg x) (s.reg y))) := rfl

end

/-! 8-bit arithmetic (R128) and the flag's byte (R12, R13), in natural numbers. -/

section
variable (a b : Byte)

/-- A sum of bytes wraps modulo 256 (R128). -/
theorem byte_add_eq_ofNat_mod : a + b = BitVec.ofNat 8 ((a.toNat + b.toNat) % 256) :=
  BitVec.eq_of_toNat_eq (by simp)

/-- A difference of bytes wraps modulo 256 (R126, R128). -/
theorem byte_sub_eq_ofNat_mod : a - b = BitVec.ofNat 8 ((a.toNat + 256 - b.toNat) % 256) := by
  have hb : b.toNat < 256 := b.isLt
  apply BitVec.eq_of_toNat_eq
  rw [BitVec.toNat_sub, BitVec.toNat_ofNat]
  omega

/-- The byte the carry puts into the flag register (R125). -/
theorem ite_carryFlag : (if carryFlag a b then 1 else 0 : Byte) = if a.toNat + b.toNat > 255 then 1 else 0 := by
  simp only [carryFlag, decide_eq_true_eq]

/-- The byte not-borrow puts into the flag register (R126). -/
theorem ite_notBorrowFlag : (if notBorrowFlag a b then 1 else 0 : Byte) = if a.toNat < b.toNat then 0 else 1 := by
  simp only [notBorrowFlag, Bool.not_eq_true', decide_eq_false_iff_not, ite_not]

end

/-! The generic advance, in the terms of the statements. -/

section
variable {i : Instr} {s t : State} {x : RegIx} {v : Byte}

/-- An instruction whose meaning is the generic advance commits its writes with `pc` 2 further, or faults where that
is out of bounds (R86, R87). -/
theorem exec_of_advance (hexec : exec i s = advance i s t) :
    (s.pc.toNat + 2 ≤ 0xFFF → exec i s = .next (t.setPc (s.pc + 2))) ∧
    (0xFFF < s.pc.toNat + 2 → exec i s = .next (s.haltedBy 4 (encodeWord i))) :=
  ⟨fun h => hexec.trans (advance_of_le h), fun h => hexec.trans (advance_of_gt h)⟩

/-- What an instruction that writes one register does, the register's new value described bit by bit by `bit`. -/
theorem exec_of_advance_setReg_bits {bit : Nat → Bool} (hexec : exec i s = advance i s (s.setReg x v))
    (hv : ∀ b, v.getLsbD b = bit b) :
    (s.pc.toNat + 2 ≤ 0xFFF →
      ∃ u, exec i s = .next u ∧ (∀ b, u.regs[x.val].getLsbD b = bit b) ∧
        u = { s with regs := s.regs.set x.val u.regs[x.val], pc := s.pc + 2 }) ∧
    (0xFFF < s.pc.toNat + 2 → exec i s = .next (s.haltedBy 4 (encodeWord i))) := by
  obtain ⟨hle, hgt⟩ := exec_of_advance hexec
  have hx : ((s.setReg x v).setPc (s.pc + 2)).regs[x.val] = v := State.reg_setReg_same s x v
  refine ⟨fun h => ⟨_, hle h, fun b => ?_, ?_⟩, hgt⟩
  · rw [hx, hv]
  · rw [hx]
    rfl

end

/-- Settles O8: the advance commits the one register write. -/
theorem ldImmLoadsImmediate : Obligations.LdImmLoadsImmediate := fun x nn s =>
  ⟨decodeWord_encodeWord (.ldImm x nn) rfl, exec_of_advance (exec_ldImm s x nn)⟩

/-- Settles O9: the 8-bit sum is the sum modulo 256, and the flag register is not among the writes. -/
theorem addImmWrapsWithoutFlag : Obligations.AddImmWrapsWithoutFlag := by
  intro x nn s
  rw [← byte_add_eq_ofNat_mod]
  exact ⟨decodeWord_encodeWord (.addImm x nn) rfl, exec_of_advance (exec_addImm s x nn)⟩

/-- Settles O11: the byte written is the OR, bit by bit. -/
theorem orRegIsBitwiseOr : Obligations.OrRegIsBitwiseOr := fun x y s =>
  ⟨decodeWord_encodeWord (.orReg x y) rfl,
    exec_of_advance_setReg_bits (exec_orReg s x y) fun _ => BitVec.getLsbD_or⟩

/-- Settles O12: the byte written is the AND, bit by bit. -/
theorem andRegIsBitwiseAnd : Obligations.AndRegIsBitwiseAnd := fun x y s =>
  ⟨decodeWord_encodeWord (.andReg x y) rfl,
    exec_of_advance_setReg_bits (exec_andReg s x y) fun _ => BitVec.getLsbD_and⟩

/-- Settles O13: sum and carry are both taken from the state before the step, and the flag is written last. -/
theorem addRegSumThenCarry : Obligations.AddRegSumThenCarry := by
  intro x y s
  rw [← byte_add_eq_ofNat_mod, ← ite_carryFlag]
  exact ⟨decodeWord_encodeWord (.addReg x y) rfl, exec_of_advance (exec_addReg s x y)⟩

/-- Settles O14: difference and not-borrow are both taken from the state before the step, and the flag is written
last. -/
theorem subRegDifferenceThenNotBorrow : Obligations.SubRegDifferenceThenNotBorrow := by
  intro x y s
  rw [← byte_sub_eq_ofNat_mod, ← ite_notBorrowFlag]
  exact ⟨decodeWord_encodeWord (.subReg x y) rfl, exec_of_advance (exec_subReg s x y)⟩

end Sys2Proof.Machine

/-! The index register, decimal conversion and block transfer instructions (43_index_memory.md R140 to R147). -/

namespace Sys2Proof.Machine

/-! The meaning of each, through the shared operations. -/

section
variable (s : State) (x : RegIx) (nnn : Addr)

theorem exec_ldI : exec (.ldI nnn) s = advance (.ldI nnn) s (s.setIndex nnn) := rfl
theorem exec_ldF : exec (.ldF x) s = advance (.ldF x) s (s.setIndex (glyphAddr (s.reg x))) := rfl
theorem exec_ldB : exec (.ldB x) s =
    orRaise (.ldB x) s (s.memWrite s.index.toNat (decimalDigits (s.reg x))) fun t => advance (.ldB x) s t := rfl
theorem exec_storeRegs : exec (.storeRegs x) s =
    orRaise (.storeRegs x) s (s.memWrite s.index.toNat (s.regsUpTo x)) fun t => advance (.storeRegs x) s t := rfl
theorem exec_loadRegs : exec (.loadRegs x) s =
    orRaise (.loadRegs x) s (s.memRead s.index.toNat (x.val + 1))
      fun bytes => advance (.loadRegs x) s (s.setRegs bytes) := rfl

end

/-! The operands. -/

/-- The glyph address in natural numbers: 5 times the low 4 bits (R142). -/
theorem glyphAddr_eq_ofNat_mod (v : Byte) : glyphAddr v = BitVec.ofNat 12 (5 * (v.toNat % 16)) := by
  rw [glyphAddr, BitVec.extractLsb'_toNat, Nat.shiftRight_zero]

/-- Byte `k` of a block store is register `k` (R144). -/
theorem State.regsUpTo_getElem?_of_le (s : State) {x k : RegIx} (h : k ≤ x) :
    (s.regsUpTo x)[k.val]? = some (s.reg k) := by
  have hk : k.val < (s.regsUpTo x).length := s.regsUpTo_length x ▸ Nat.lt_succ_of_le h
  rw [List.getElem?_eq_getElem hk, s.regsUpTo_getElem x k hk]

/-- A block load fills the registers up to `x[X]` and keeps those above (R145). -/
theorem State.reg_setRegs_bytesAt (s : State) (a : Nat) (x k : RegIx) :
    (s.setRegs (s.bytesAt a (x.val + 1))).reg k = if k ≤ x then s.readByte (a + k.val) else s.reg k := by
  rw [State.reg_setRegs]
  split
  · next h =>
    have hk : k.val < (s.bytesAt a (x.val + 1)).length := by
      rw [State.bytesAt_length]
      exact Nat.lt_succ_of_le h
    rw [List.getD_eq_getElem _ _ hk, State.bytesAt_getElem]
  · next h =>
    apply List.getD_eq_default
    rw [State.bytesAt_length]
    exact Nat.lt_of_not_le h

/-! The checked accesses, by where the range lies. -/

section
variable {s : State} {a n : Nat} {bytes : List Byte}

/-- A read inside Memory answers (R44). -/
theorem State.memRead_of_le (h : a + n ≤ 0xFFF) : s.memRead a (n + 1) = .ok (s.bytesAt a (n + 1)) :=
  if_pos (.inr (Nat.succ_le_succ h))

/-- A read past 0xFFF is OutOfBoundsAccess (R44). -/
theorem State.memRead_of_gt (h : 0xFFF < a + n) : s.memRead a (n + 1) = .error .outOfBoundsAccess :=
  if_neg (by simp only [Config.addrMax]; omega)

/-- A write inside the writable Memory answers (R44, R45). -/
theorem State.memWrite_of_le (hlen : bytes.length = n + 1) (h : a + n ≤ 0xFFF) (ha : 0x04F < a) :
    s.memWrite a bytes = .ok { s with mem := s.mem.writeAll a bytes } :=
  if_pos (by simp only [Config.addrMax, Config.glyphBytes]; omega)

/-- A write past 0xFFF or into the glyph table is OutOfBoundsAccess (R44, R45). -/
theorem State.memWrite_of_outside (hlen : bytes.length = n + 1) (h : 0xFFF < a + n ∨ a ≤ 0x04F) :
    s.memWrite a bytes = .error .outOfBoundsAccess :=
  if_neg (by simp only [Config.addrMax, Config.glyphBytes]; omega)

end

/-! A checked access and then the generic advance, in the terms of the statements. -/

section
variable {i : Instr} {s : State}

/-- An instruction that checks something and then advances commits its writes where both are in bounds, and takes
OutOfBoundsAccess where either is not, nothing committed (R85, R87). -/
theorem exec_of_orRaise_advance {α : Type} {e : Except Fault α} {f : α → State}
    (hexec : exec i s = orRaise i s e fun v => advance i s (f v)) (he : ∀ k, e = .error k → k = .outOfBoundsAccess) :
    (∀ v, e = .ok v → s.pc.toNat + 2 ≤ 0xFFF → exec i s = .next ((f v).setPc (s.pc + 2))) ∧
    (e = .error .outOfBoundsAccess → exec i s = .next (s.haltedBy 4 (encodeWord i))) ∧
    (0xFFF < s.pc.toNat + 2 → exec i s = .next (s.haltedBy 4 (encodeWord i))) := by
  have hfault (h : e = .error .outOfBoundsAccess) : exec i s = .next (s.haltedBy 4 (encodeWord i)) := by
    rw [hexec, h, orRaise_error]
    rfl
  refine ⟨fun v hv hpc => ?_, hfault, fun hpc => ?_⟩
  · rw [hexec, hv, orRaise_ok, advance_of_le hpc]
  · cases e with
    | error k => exact hfault (he k rfl ▸ rfl)
    | ok v => exact hexec.trans (advance_of_gt hpc)

/-- What an instruction that stores `n + 1` bytes from `I` up does (R143, R144): every stored byte is read back, every
other byte and all other state but `pc` are kept, and a range out of bounds faults with nothing stored. -/
theorem exec_of_memWrite {bytes : List Byte} {n : Nat}
    (hexec : exec i s = orRaise i s (s.memWrite s.index.toNat bytes) fun t => advance i s t)
    (hwf : s.mem.wf = true) (hlen : bytes.length = n + 1) :
    (s.pc.toNat + 2 ≤ 0xFFF → s.index.toNat + n ≤ 0xFFF → 0x04F < s.index.toNat →
      ∃ t, exec i s = .next t ∧
        (∀ (k : Nat) (v : Byte), bytes[k]? = some v → t.readByte (s.index.toNat + k) = v) ∧
        (∀ a : Nat, a < s.index.toNat ∨ s.index.toNat + n < a → t.readByte a = s.readByte a) ∧
        t = { s with mem := t.mem, pc := s.pc + 2 }) ∧
    (0xFFF < s.index.toNat + n ∨ s.index.toNat ≤ 0x04F → exec i s = .next (s.haltedBy 4 (encodeWord i))) ∧
    (0xFFF < s.pc.toNat + 2 → exec i s = .next (s.haltedBy 4 (encodeWord i))) := by
  obtain ⟨hok, herr, hpc⟩ := exec_of_orRaise_advance hexec fun k hk => (State.memWrite_error hk).1
  refine ⟨fun hpc hle hglyphs => ?_, fun h => herr (State.memWrite_of_outside hlen h), hpc⟩
  have hwrite := State.memWrite_of_le (s := s) hlen hle hglyphs
  refine ⟨_, hok _ hwrite hpc, fun k v hk => ?_, fun a ha => ?_, rfl⟩
  · obtain ⟨hlt, rfl⟩ := List.getElem?_eq_some_iff.mp hk
    rw [State.readByte_setPc, State.memWrite_read hwrite hwf hlt]
  · rw [State.readByte_setPc, State.memWrite_read_other hwrite (by omega)]

end

/-- Settles O16: the advance commits the one write of `I`. -/
theorem ldISetsIndex : Obligations.LdISetsIndex := fun nnn s =>
  ⟨decodeWord_encodeWord (.ldI nnn) rfl, exec_of_advance (exec_ldI s nnn)⟩

/-- Settles O23: the glyph address is 5 times the low 4 bits, the remainder by 16. -/
theorem ldFPointsAtGlyph : Obligations.LdFPointsAtGlyph := by
  intro x s
  rw [← glyphAddr_eq_ofNat_mod]
  exact ⟨decodeWord_encodeWord (.ldF x) rfl, exec_of_advance (exec_ldF s x)⟩

/-- Settles O24: the store of three bytes, each a digit that fits a byte. -/
theorem ldBStoresDecimalDigits : Obligations.LdBStoresDecimalDigits := by
  intro x s hwf
  obtain ⟨hstore, hrange, hpc⟩ := exec_of_memWrite (exec_ldB s x) hwf (n := 2) rfl
  refine ⟨decodeWord_encodeWord (.ldB x) rfl, fun h1 h2 h3 => ?_, hrange, hpc⟩
  obtain ⟨t, ht, hread, hother, hframe⟩ := hstore h1 h2 h3
  have hdigit (k d : Nat) (hk : (decimalDigits (s.reg x))[k]? = some (BitVec.ofNat 8 d)) (hd : d < 256) :
      (t.readByte (s.index.toNat + k)).toNat = d := by
    rw [hread k _ hk, BitVec.toNat_ofNat, Nat.mod_eq_of_lt hd]
  have hx : s.regs[x.val].toNat < 256 := s.regs[x.val].isLt
  exact ⟨t, ht, hdigit 0 _ rfl (by omega), hdigit 1 _ rfl (by omega), hdigit 2 _ rfl (by omega), hother, hframe⟩

/-- Settles O25: the store of the `X + 1` registers. -/
theorem storeRegsStoresRegisters : Obligations.StoreRegsStoresRegisters := by
  intro x s hwf
  obtain ⟨hstore, hfaults⟩ := exec_of_memWrite (exec_storeRegs s x) hwf (s.regsUpTo_length x)
  refine ⟨decodeWord_encodeWord (.storeRegs x) rfl, fun h1 h2 h3 => ?_, hfaults⟩
  obtain ⟨t, ht, hread, hother, hframe⟩ := hstore h1 h2 h3
  exact ⟨t, ht, fun k hk => hread k.val _ (s.regsUpTo_getElem?_of_le hk), hother, hframe⟩

/-- Settles O26: the checked read, the glyph table included, fills the registers up to `x[X]`. -/
theorem loadRegsLoadsRegisters : Obligations.LoadRegsLoadsRegisters := by
  intro x s
  obtain ⟨hok, herr, hpc⟩ := exec_of_orRaise_advance (exec_loadRegs s x) fun k hk => (State.memRead_error hk).1
  refine ⟨decodeWord_encodeWord (.loadRegs x) rfl, fun h1 h2 => ?_, fun h => herr (State.memRead_of_gt h), hpc⟩
  exact ⟨_, hok _ (State.memRead_of_le h2) h1, s.reg_setRegs_bytesAt s.index.toNat x, rfl⟩

end Sys2Proof.Machine

/-! The display instructions (44_display.md R160 to R168). -/

namespace Sys2Proof.Machine

/-! The checks of `DRW`. -/

/-- Where a sprite fits the grid, in natural numbers (R163, R166). -/
theorem spriteFits_iff (cx cy n : Nat) :
    spriteFits cx cy n = true ↔ n = 0 ∨ (cx + 7 ≤ 63 ∧ cy + n - 1 ≤ 31) := by
  simp only [spriteFits, Bool.or_eq_true, Bool.and_eq_true, beq_iff_eq, decide_eq_true_eq]

/-- A sprite that fits has its first row and its other rows fit. -/
theorem spriteFits_cons {cx row : Nat} {b : Byte} {sprite : List Byte}
    (hfit : spriteFits cx row (b :: sprite).length = true) :
    row < 32 ∧ cx + 8 ≤ 64 ∧ spriteFits cx (row + 1) sprite.length = true := by
  rw [spriteFits_iff, List.length_cons] at hfit
  rw [spriteFits_iff]
  omega

/-- The sprite bytes of `DRW`, once both its checks have passed: Memory and grid (R163). -/
def State.spriteBytes (s : State) (x y : RegIx) (n : Nat) : Except Fault (List Byte) :=
  if spriteFits (s.reg x).toNat (s.reg y).toNat n then s.memRead s.index.toNat n else .error .outOfBoundsAccess

section
variable {s : State} {x y : RegIx} {n : Nat}

/-- Both checks pass: the sprite lies in Memory and fits the grid, or there is none (R163, R166). -/
theorem State.spriteBytes_of_inside (h : n = 0 ∨ (s.index.toNat + n - 1 ≤ 0xFFF ∧ (s.reg x).toNat + 7 ≤ 63 ∧
    (s.reg y).toNat + n - 1 ≤ 31)) :
    s.spriteBytes x y n = .ok (s.bytesAt s.index.toNat n) := by
  rw [State.spriteBytes, if_pos ((spriteFits_iff _ _ _).mpr (by omega)), State.memRead,
    if_pos (by simp only [Config.addrMax]; omega)]

/-- A sprite byte past Memory or a targeted cell outside the grid is OutOfBoundsAccess (R163). -/
theorem State.spriteBytes_of_outside (hn : 0 < n) (h : 0xFFF < s.index.toNat + n - 1 ∨ 63 < (s.reg x).toNat + 7 ∨
    31 < (s.reg y).toNat + n - 1) :
    s.spriteBytes x y n = .error .outOfBoundsAccess := by
  rw [State.spriteBytes, ite_eq_right_iff, spriteFits_iff]
  intro hfit
  rw [State.memRead, if_neg (by simp only [Config.addrMax]; omega)]

/-- `DRW`'s checks raise nothing but OutOfBoundsAccess. -/
theorem State.spriteBytes_error {k : Fault} (h : s.spriteBytes x y n = .error k) : k = .outOfBoundsAccess := by
  rw [State.spriteBytes] at h
  split at h
  · exact (State.memRead_error h).1
  · cases h
    rfl

end

/-! The compositor: each cell a sprite row targets is the old cell exclusive-or its sprite bit, every other cell is
kept, and the collision is remembered (R161, R162, R164). -/

section
variable {fb : Framebuffer} {rowByte : Byte} {row cx : Nat} {acc : Framebuffer × Bool}

/-- The cells after the first `k` pixels of a sprite row. -/
theorem cell_foldl_drawPixel (hrow : row < 32) {k : Nat} (hk : cx + k ≤ 64) (r c : Nat) :
    ((List.range k).foldl (drawPixel fb rowByte row cx) acc).1.cell r c =
      if r = row ∧ cx ≤ c ∧ c < cx + k then fb.cell r c ^^ spritePixel rowByte (c - cx) else acc.1.cell r c := by
  induction k with
  | zero => rw [if_neg (by omega)]; rfl
  | succ k ih =>
    rw [List.range_succ, List.foldl_concat, drawPixel, Framebuffer.cell_setCell _ _ hrow (by omega), ih (by omega)]
    by_cases h : r = row ∧ c = cx + k
    · obtain ⟨rfl, rfl⟩ := h
      simp
    · have hiff : (r = row ∧ cx ≤ c ∧ c < cx + (k + 1)) ↔ (r = row ∧ cx ≤ c ∧ c < cx + k) := by omega
      simp only [if_neg h, hiff]

/-- The collision after the first `k` pixels of a sprite row. -/
theorem collision_foldl_drawPixel (k : Nat) :
    ((List.range k).foldl (drawPixel fb rowByte row cx) acc).2 = true ↔
      acc.2 = true ∨ ∃ j, j < k ∧ spritePixel rowByte j = true ∧ fb.cell row (cx + j) = true := by
  induction k with
  | zero => simp
  | succ k ih =>
    rw [List.range_succ, List.foldl_concat, drawPixel, Bool.or_eq_true, ih, collides, Bool.and_eq_true, or_assoc,
      Nat.exists_lt_succ_right]

variable {sprite : List Byte}

/-- A cell that no sprite row from `row` down targets is kept. -/
theorem cell_drawRows_of_untargeted (hfit : spriteFits cx row sprite.length = true) {r c : Nat}
    (h : ¬(row ≤ r ∧ r < row + sprite.length ∧ cx ≤ c ∧ c < cx + 8)) :
    (drawRows fb cx row sprite acc).1.cell r c = acc.1.cell r c := by
  induction sprite generalizing row acc with
  | nil => rfl
  | cons b rest ih =>
    obtain ⟨hrow, hcx, hrest⟩ := spriteFits_cons hfit
    rw [List.length_cons] at h
    rw [drawRows, ih hrest (by omega), drawRow, cell_foldl_drawPixel hrow hcx, if_neg (by omega)]

/-- A targeted cell is the old cell exclusive-or its sprite bit. -/
theorem cell_drawRows_of_targeted (hfit : spriteFits cx row sprite.length = true) {i c : Nat}
    (hi : i < sprite.length) (hc : cx ≤ c ∧ c < cx + 8) :
    (drawRows fb cx row sprite acc).1.cell (row + i) c =
      (fb.cell (row + i) c ^^ spritePixel (sprite.getD i 0) (c - cx)) := by
  induction sprite generalizing row acc i with
  | nil => cases hi
  | cons b rest ih =>
    obtain ⟨hrow, hcx, hrest⟩ := spriteFits_cons hfit
    rw [drawRows]
    cases i with
    | zero =>
      rw [cell_drawRows_of_untargeted hrest (by omega), drawRow, cell_foldl_drawPixel hrow hcx, if_pos ⟨rfl, hc⟩]
      rfl
    | succ i =>
      rw [← Nat.add_assoc, Nat.add_right_comm row i 1]
      exact ih hrest (Nat.lt_of_succ_lt_succ hi)

/-- The collision: some sprite bit 1 meets an old cell 1. -/
theorem collision_drawRows :
    (drawRows fb cx row sprite acc).2 = true ↔
      acc.2 = true ∨ ∃ i, i < sprite.length ∧ ∃ j, j < 8 ∧
        spritePixel (sprite.getD i 0) j = true ∧ fb.cell (row + i) (cx + j) = true := by
  induction sprite generalizing row acc with
  | nil => simp [drawRows]
  | cons b rest ih =>
    rw [drawRows, ih, drawRow, collision_foldl_drawPixel, or_assoc, List.length_cons,
      Nat.exists_lt_succ_left (n := rest.length)]
    simp only [List.getD_cons_zero, List.getD_cons_succ, Nat.add_zero, Nat.add_right_comm row 1, Nat.add_assoc]

end

/-! The compositor on a sprite from Memory. -/

section
variable {fb : Framebuffer} {s : State} {a n cx cy : Nat}

/-- Sprite byte `i` is the byte at `a + i`. -/
theorem State.bytesAt_getD {a i : Nat} (hi : i < n) : (s.bytesAt a n).getD i 0 = s.readByte (a + i) := by
  rw [List.getD_eq_getElem _ _ (hi.trans_eq (s.bytesAt_length a n).symm), State.bytesAt_getElem]

/-- Every cell after drawing a sprite from Memory: a cell no sprite bit targets is exclusive-or 0 (R161). -/
theorem cell_drawSprite_bytesAt (hfit : spriteFits cx cy n = true) (row col : Nat) :
    (drawSprite fb cx cy (s.bytesAt a n)).1.cell row col =
      (fb.cell row col ^^ (decide (cy ≤ row ∧ row < cy + n ∧ cx ≤ col ∧ col < cx + 8) &&
        (s.readByte (a + (row - cy))).getLsbD (7 - (col - cx)))) := by
  rw [← s.bytesAt_length a n] at hfit
  by_cases h : cy ≤ row ∧ row < cy + n ∧ cx ≤ col ∧ col < cx + 8
  · obtain ⟨i, rfl⟩ := Nat.exists_eq_add_of_le h.1
    have hi : i < n := by omega
    rw [drawSprite, cell_drawRows_of_targeted hfit (by rwa [State.bytesAt_length]) h.2.2, State.bytesAt_getD hi,
      decide_eq_true h, Nat.add_sub_cancel_left, Bool.true_and, spritePixel]
  · rw [drawSprite, cell_drawRows_of_untargeted hfit (by rwa [State.bytesAt_length]), decide_eq_false h,
      Bool.false_and, Bool.xor_false]

/-- The collision after drawing a sprite from Memory (R164). -/
theorem collision_drawSprite_bytesAt :
    (drawSprite fb cx cy (s.bytesAt a n)).2 = true ↔
      ∃ i j : Nat, i < n ∧ j < 8 ∧ (s.readByte (a + i)).getLsbD (7 - j) = true ∧ fb.cell (cy + i) (cx + j) = true := by
  rw [drawSprite, collision_drawRows, State.bytesAt_length]
  simp only [Bool.false_eq_true, false_or, ← exists_and_left]
  refine exists_congr fun i => exists_congr fun j => and_congr_right fun hi => ?_
  rw [State.bytesAt_getD hi, spritePixel]

end

/-! What `DRW` writes. -/

/-- The compositor at the coordinates `DRW` reads from two registers (R161, R165). -/
def State.drawing (s : State) (x y : RegIx) (sprite : List Byte) : Framebuffer × Bool :=
  drawSprite s.fb (s.reg x).toNat (s.reg y).toNat sprite

/-- The writes of `DRW` but `pc`: the framebuffer, then the flag (R161, R165). -/
def State.drawn (s : State) (x y : RegIx) (sprite : List Byte) : State :=
  (s.setFb (s.drawing x y sprite).1).setFlag (s.drawing x y sprite).2

/-- The flag register after drawing (R12). -/
theorem State.drawn_flag (s : State) (x y : RegIx) (sprite : List Byte) :
    (s.drawn x y sprite).regs[15] = if (s.drawing x y sprite).2 then 1 else 0 :=
  State.reg_setReg_same _ flagReg _

/-- The flag's byte is 1 or 0 (R12). -/
theorem ite_one_zero_eq (b : Bool) :
    ((if b then 1 else 0 : Byte) = 1 ∨ (if b then 1 else 0 : Byte) = 0) ∧
      ((if b then 1 else 0 : Byte) = 1 ↔ b = true) := by
  cases b <;> decide

/-! The meaning of each, through the shared operations. -/

section
variable (s : State) (x y : RegIx) (n : Nat)

theorem exec_cls : exec .cls s = advance .cls s (s.setFb Framebuffer.clear) := rfl

/-- `DRW` as one check and then the generic advance: a failed check is OutOfBoundsAccess whichever it is (R163). -/
theorem exec_drw :
    exec (.drw x y n) s =
      orRaise (.drw x y n) s (s.spriteBytes x y n) fun sprite => advance (.drw x y n) s (s.drawn x y sprite) := by
  have hexec : exec (.drw x y n) s = execDrw x y n s := rfl
  rw [hexec, execDrw, State.base, State.spriteBytes]
  cases hread : s.memRead s.index.toNat n with
  | error k =>
    rw [(State.memRead_error hread).1, ite_self]
    rfl
  | ok sprite =>
    rw [orRaise_ok]
    split <;> rfl

end

/-! The outputs of a step, and the two statements. -/

/-- A completed step raises `redraw` as the instruction it executed does (R90). -/
theorem stepOutputs_redraw {s u : State} {i : Instr} (hi : s.nextInstr = some i) (hu : u.halt = false) :
    (stepOutputs s u).redraw = raisesRedraw i := by
  simp [stepOutputs, hi, hu]

/-- Settles O1: the advance commits the clear framebuffer. -/
theorem clsClearsEveryCell : Obligations.ClsClearsEveryCell := by
  intro s
  obtain ⟨hle, hgt⟩ := exec_of_advance (exec_cls s)
  exact ⟨decodeWord_encodeWord .cls rfl, fun h => ⟨_, hle h, Framebuffer.cell_clear, rfl⟩, hgt,
    fun hi _ _ hu => stepOutputs_redraw hi hu⟩

/-- Settles O19: once the sprite is read and fits, the compositor gives the cells and the collision the flag. -/
theorem drwCombinesByExclusiveOr : Obligations.DrwCombinesByExclusiveOr := by
  intro x y n s hn
  obtain ⟨hok, herr, hpc⟩ := exec_of_orRaise_advance (exec_drw s x y n) fun k => State.spriteBytes_error
  refine ⟨decodeWord_encodeWord (.drw x y n) (decide_eq_true hn), fun h hinside => ?_,
    fun h0 h => herr (State.spriteBytes_of_outside h0 h), hpc, fun hi _ _ hu => stepOutputs_redraw hi hu⟩
  have hfit : spriteFits (s.reg x).toNat (s.reg y).toNat n = true :=
    (spriteFits_iff _ _ _).mpr (hinside.imp_right And.right)
  obtain ⟨hbyte, hone⟩ := ite_one_zero_eq (s.drawing x y (s.bytesAt s.index.toNat n)).2
  refine ⟨_, hok _ (State.spriteBytes_of_inside hinside) h, fun _ _ _ _ => cell_drawSprite_bytesAt hfit _ _, ?_⟩
  rw [State.setPc_regs, State.drawn_flag]
  exact ⟨hbyte, hone.trans collision_drawSprite_bytesAt, rfl⟩

end Sys2Proof.Machine

/-! The timer instructions (45_timer_access.md R180, R181) and the timer check that ends their step (R89, R217). -/

namespace Sys2Proof.Machine

section
variable (s : State) (x : RegIx)

theorem exec_ldFromDt : exec (.ldFromDt x) s = advance (.ldFromDt x) s (s.setReg x s.dt) := rfl
theorem exec_ldDt : exec (.ldDt x) s = advance (.ldDt x) s (s.setDt (s.reg x)) := rfl

end

/-- A timer after the check, whatever the gate's verdict: 1 less, floor 0, exactly when the gate fires (R217). -/
theorem tickDown_toNat (fires : Bool) (t : Byte) : (tickDown fires t).toNat = t.toNat - if fires then 1 else 0 := by
  cases fires with
  | false => rw [tickDown_false]; rfl
  | true => exact tickDown_true_toNat t

section
variable {i : Instr} {s t u : State}

/-- The one state an instruction whose meaning is the generic advance answers with, its new `pc` in bounds (R86). -/
theorem eq_setPc_of_exec_advance (hexec : exec i s = advance i s t) (hpc : s.pc.toNat + 2 ≤ 0xFFF)
    (hu : exec i s = .next u) : u = t.setPc (s.pc + 2) := by
  rw [(exec_of_advance hexec).1 hpc] at hu
  cases hu
  rfl

end

/-- Settles O20: the advance commits the old `DT` to the register; the timer check after it moves `DT` alone. -/
theorem ldFromDtReadsTimer : Obligations.LdFromDtReadsTimer := by
  intro x s
  obtain ⟨hle, hgt⟩ := exec_of_advance (exec_ldFromDt s x)
  refine ⟨decodeWord_encodeWord (.ldFromDt x) rfl, hle, hgt, fun u fires now hu hpc => ?_⟩
  rw [eq_setPc_of_exec_advance (exec_ldFromDt s x) hpc hu]
  exact ⟨State.reg_setReg_same s x s.dt, tickDown_toNat fires s.dt⟩

/-- Settles O21: the advance commits the register to `DT` and leaves `TREF`; the timer check after it sees the new
`DT`. -/
theorem ldDtSetsTimer : Obligations.LdDtSetsTimer := by
  intro x s
  obtain ⟨hle, hgt⟩ := exec_of_advance (exec_ldDt s x)
  refine ⟨decodeWord_encodeWord (.ldDt x) rfl, hle, hgt, fun u fires now hu hpc => ?_⟩
  rw [eq_setPc_of_exec_advance (exec_ldDt s x) hpc hu]
  exact ⟨rfl, tickDown_toNat fires (s.reg x)⟩

end Sys2Proof.Machine

/-! The timers over a step (60_exceptions.md R217): an instruction keeps both, but for `DT` under `LD DT, Vx`, and the
timer check takes at most 1 off each. -/

namespace Sys2Proof.Machine

/-- Both timers, `DT` and then `ST`. -/
def State.timers (s : State) : Byte × Byte := (s.dt, s.st)

/-! What an instruction keeps, through the shared operations. -/

section
variable {i : Instr} {s t u : State} {v : Nat}

/-- A commit of writes that reach no timer reaches none: a new `pc` and a fault leave both alone. -/
theorem timers_of_commitPc (hu : commitPc i s t v = .next u) (ht : t.timers = s.timers) : u.timers = s.timers := by
  rcases commitPc_cases hu with ⟨-, rfl⟩ | ⟨-, rfl⟩
  · exact ht
  · rfl

/-- Nor does a check before the commit, whatever it raises. -/
theorem timers_of_orRaise_commitPc {α : Type} {e : Except Fault α} {f : α → State} {p : α → Nat}
    (hu : orRaise i s e (fun a => commitPc i s (f a) (p a)) = .next u)
    (hf : ∀ a, e = .ok a → (f a).timers = s.timers) : u.timers = s.timers := by
  rcases orRaise_cases hu with ⟨a, ha, hu⟩ | ⟨k, -, rfl⟩
  · exact timers_of_commitPc hu (hf a ha)
  · rfl

/-- A checked write reaches no timer. -/
theorem State.timers_of_memWrite {a : Nat} {bytes : List Byte} (h : s.memWrite a bytes = .ok t) :
    t.timers = s.timers := by
  obtain ⟨-, rfl⟩ := State.memWrite_ok h
  rfl

/-- A push reaches no timer. -/
theorem State.timers_of_push {a : Addr} (h : s.push a = .ok t) : t.timers = s.timers := by
  obtain ⟨-, rfl⟩ := State.push_ok h
  rfl

/-- A pop reaches no timer. -/
theorem State.timers_of_pop {a : Addr} (h : s.pop = .ok (a, t)) : t.timers = s.timers := by
  obtain ⟨-, -, -, rfl⟩ := State.pop_ok h
  rfl

/-- `LD DT, Vx` is the one instruction that writes a timer (R181, R182): every other meaning commits writes that reach
none, after a check in seven of them. -/
theorem timers_of_exec (hi : ∀ x, i ≠ .ldDt x) (hu : exec i s = .next u) : u.timers = s.timers := by
  cases i with
  | ldDt x => exact absurd rfl (hi x)
  | ret => exact timers_of_orRaise_commitPc hu fun _ => State.timers_of_pop
  | call => exact timers_of_orRaise_commitPc hu fun _ => State.timers_of_push
  | ldB | storeRegs => exact timers_of_orRaise_commitPc hu fun _ => State.timers_of_memWrite
  | addI | loadRegs => exact timers_of_orRaise_commitPc hu fun _ _ => rfl
  | drw x y n => exact timers_of_orRaise_commitPc (f := s.drawn x y) (exec_drw s x y n ▸ hu) fun _ _ => rfl
  | cls | jp | seImm | sneImm | seReg | ldImm | addImm | ldReg | orReg | andReg | addReg | subReg | sneReg | ldI | jpV0
  | rnd | ldFromDt | ldF => exact timers_of_commitPc hu rfl

/-- No instruction writes `ST` (R182). -/
theorem st_of_exec (hu : exec i s = .next u) : u.st = s.st := by
  by_cases hi : ∃ x, i = .ldDt x
  · obtain ⟨x, rfl⟩ := hi
    rcases advance_cases (exec_ldDt s x ▸ hu) with ⟨-, rfl⟩ | ⟨-, rfl⟩ <;> rfl
  · exact congrArg Prod.snd (timers_of_exec (not_exists.mp hi) hu)

end

/-! What a step does to the timers. -/

section
variable {s t : State}

/-- A running machine that fetched and decoded executes the instruction it decoded. -/
theorem State.nextInstr_of_decodeWord {w : Word} {i : Instr} (h : s.halt = false) (hf : s.fetch = .ok w)
    (hd : decodeWord w = .ok i) : s.nextInstr = some i := by
  simp [State.nextInstr, h, hf, hd]

/-- A step is one timer check on both timers, but where it executes `LD DT, Vx` on `ST` alone. A step that completes
nothing counts here as one whose gate does not fire (R88, R89, R220). -/
theorem step_timers (h : step s = .next t) :
    ∃ fires, t.st = tickDown fires s.st ∧ ((∀ x, s.nextInstr ≠ some (.ldDt x)) → t.dt = tickDown fires s.dt) := by
  obtain ⟨-, rfl⟩ | ⟨-, k, -, rfl⟩ | ⟨-, w, e, -, -, rfl⟩ | ⟨hrun, w, i, u, hf, hd, hu, rfl⟩ := step_cases h
  · exact ⟨false, (tickDown_false _).symm, fun _ => (tickDown_false _).symm⟩
  · exact ⟨false, (tickDown_false s.st).symm, fun _ => (tickDown_false s.dt).symm⟩
  · exact ⟨false, (tickDown_false s.st).symm, fun _ => (tickDown_false s.dt).symm⟩
  · have hst : u.st = s.st := st_of_exec hu
    have hdt (hn : ∀ x, s.nextInstr ≠ some (.ldDt x)) : u.dt = s.dt := by
      rw [State.nextInstr_of_decodeWord hrun hf hd] at hn
      exact congrArg Prod.fst (timers_of_exec (fun x hx => hn x (congrArg some hx)) hu)
    rw [← hst]
    split
    · exact ⟨false, (tickDown_false u.st).symm, fun hn => (hdt hn).trans (tickDown_false s.dt).symm⟩
    · exact ⟨Config.tickInput u.inputs, rfl, fun hn => congrArg (tickDown _) (hdt hn)⟩

/-- A timer check takes at most 1 off a timer, and never adds to it (R217). -/
theorem tickDown_bounds (fires : Bool) (v : Byte) :
    (tickDown fires v).toNat ≤ v.toNat ∧ v.toNat ≤ (tickDown fires v).toNat + 1 := by
  rw [tickDown_toNat]
  split <;> omega

end

/-- Settles O42: one firing takes 1 off each timer, floor 0, and a step moves a timer by one timer check at most. -/
theorem timersCountDownToZero : Obligations.TimersCountDownToZero := by
  refine ⟨fun s now => ⟨tickDown_true_toNat s.dt, tickDown_true_toNat s.st, tickDown_false s.dt, tickDown_false s.st⟩,
    fun s t h => ?_⟩
  obtain ⟨fires, hst, hdt⟩ := step_timers h
  obtain ⟨hle, hge⟩ := tickDown_bounds fires s.st
  rw [hst]
  refine ⟨hle, hge, fun hn => ?_⟩
  rw [hdt hn]
  exact tickDown_bounds fires s.dt

end Sys2Proof.Machine

/-! The decoder and the encoder against each other and against the opcode table (30_encoding.md R60 to R70). -/

namespace Sys2Proof

/-! Round trips. -/

/-- Decoding the bytes of a word is decoding the word; the bytes after it come back (R46, R60). -/
theorem decode_bytesOfWord_append {w : Word} {i : Instr} (h : decodeWord w = .ok i) (rest : List Byte) :
    decode (bytesOfWord w ++ rest) = .ok (i, rest) := by
  simp only [bytesOfWord, List.cons_append, List.nil_append, decode, wordOfBytes_bytes, h]

/-- Settles O27: a word survives being cut into its two bytes, and the word of a well-formed instruction decodes to
it. -/
theorem decodeOfEncodeIsTheInstruction : Obligations.DecodeOfEncodeIsTheInstruction := fun i rest hi =>
  decode_bytesOfWord_append (decodeWord_encodeWord i hi) rest

/-- The decoder's answer on a word is that of the pattern match on its nibbles (R62). -/
theorem decodeNibbles_of_decodeWord {a b c d : Nibble} {i : Instr} (h : decodeWord (a ++ b ++ c ++ d) = .ok i) :
    decodeNibbles a b c d = some i := by
  rw [decodeWord_append] at h
  split at h
  next hj => cases h; exact hj
  next => cases h

/-- An instruction that nibbles match is well formed: the row count of `DRW` is one nibble (R64). -/
theorem wellFormed_of_decodeNibbles {a b c d : Nibble} {i : Instr} (h : decodeNibbles a b c d = some i) :
    i.wellFormed = true := by
  unfold decodeNibbles at h
  split at h <;> cases h
  case h_19 => exact decide_eq_true d.isLt
  all_goals rfl

/-- Settles O28: no pattern of the decoder drops a nibble. -/
theorem encodeOfDecodedWordIsTheWord : Obligations.EncodeOfDecodedWordIsTheWord := by
  intro w i h
  refine ⟨?_, encodeWord_of_decodeWord h⟩
  rw [← append_nibbles w] at h
  exact wellFormed_of_decodeNibbles (decodeNibbles_of_decodeWord h)

/-! The table's rows, nibble by nibble. -/

/-- Masking a word masks its nibbles. -/
theorem nibbles_and (v w : Word) :
    nibbles (v &&& w) = ((nibbles v).1 &&& (nibbles w).1, (nibbles v).2.1 &&& (nibbles w).2.1,
      (nibbles v).2.2.1 &&& (nibbles w).2.2.1, (nibbles v).2.2.2 &&& (nibbles w).2.2.2) := by
  simp only [nibbles, BitVec.extractLsb'_and]

/-- A row covers four nibbles when each, masked, is the row's (R65). -/
theorem nibbles_of_covers {r : OpcodeRow} {a b c d : Nibble} (h : r.covers (a ++ b ++ c ++ d) = true) :
    (a &&& (nibbles r.mask).1, b &&& (nibbles r.mask).2.1, c &&& (nibbles r.mask).2.2.1,
      d &&& (nibbles r.mask).2.2.2) = nibbles r.pattern := by
  rw [← beq_iff_eq.mp h, nibbles_and, nibbles_append]

/-- The two masks of a nibble: all of it, or nothing. -/
theorem nibble_and_mask (a : Nibble) : a &&& 0xF#4 = a ∧ a &&& 0x0#4 = 0x0#4 :=
  ⟨BitVec.and_allOnes, BitVec.and_zero⟩

/-- A word that a row covers is one the decoder takes (R66). -/
theorem decodeNibbles_of_covers {a b c d : Nibble} :
    ∀ r ∈ opcodeRows, r.covers (a ++ b ++ c ++ d) = true → ∃ i, decodeNibbles a b c d = some i := by
  suffices H : ∀ r ∈ opcodeRows, (a &&& (nibbles r.mask).1, b &&& (nibbles r.mask).2.1, c &&& (nibbles r.mask).2.2.1,
      d &&& (nibbles r.mask).2.2.2) = nibbles r.pattern → ∃ i, decodeNibbles a b c d = some i from
    fun r hr h => H r hr (nibbles_of_covers h)
  -- row by row, what the mask keeps of the nibbles is what the row's pattern needs
  simp only [opcodeRows, List.cons_append, List.nil_append, List.forall_mem_cons]
  repeat' apply And.intro
  case right => exact List.forall_mem_nil _
  all_goals
    simp [nibbles, nibble_and_mask]
    intros
    subst_vars
    exact ⟨_, rfl⟩

/-- Two rows that agree where both masks look are one row: no word is of two rows (R66). -/
theorem eq_of_rows_agree : ∀ r ∈ opcodeRows, ∀ r' ∈ opcodeRows,
    r.pattern &&& r'.mask = r'.pattern &&& r.mask → r = r' := by
  decide

/-- A word is of one row at most (R66). -/
theorem row_unique {w : Word} {r r' : OpcodeRow} (hr : r ∈ opcodeRows) (hr' : r' ∈ opcodeRows)
    (h : r.covers w = true) (h' : r'.covers w = true) : r = r' := by
  apply eq_of_rows_agree r hr r' hr'
  rw [← beq_iff_eq.mp h, ← beq_iff_eq.mp h', BitVec.and_assoc, BitVec.and_assoc, BitVec.and_comm r.mask]

/-- The decoder refuses four nibbles exactly when no pattern matches them (R67). -/
theorem decodeWord_append_eq_error_iff (a b c d : Nibble) :
    decodeWord (a ++ b ++ c ++ d) = .error (.unsupported (a ++ b ++ c ++ d)) ↔ decodeNibbles a b c d = none := by
  rw [decodeWord_append]
  cases decodeNibbles a b c d <;> simp

/-- Settles O29: a decoded word is of its instruction's row and of no other; a word of a row is decoded, and a decoded
word is of a row. -/
theorem decodeSelectsTheOneMatchingRow : Obligations.DecodeSelectsTheOneMatchingRow := by
  intro w
  refine ⟨fun i hi r hr => ?_, fun hrefused r hr => ?_, fun huncovered => ?_⟩
  · obtain ⟨hmem, hcov⟩ := row_covers_of_decodeWord hi
    exact ⟨fun h => row_unique hr hmem h hcov, fun h => h ▸ hcov⟩
  · by_contra h
    rw [Bool.not_eq_false] at h
    rw [← append_nibbles w] at hrefused h
    obtain ⟨i, hi⟩ := decodeNibbles_of_covers r hr h
    rw [decodeWord_append_eq_error_iff, hi] at hrefused
    cases hrefused
  · obtain ⟨e, he⟩ := decodeWord_error_of_uncovered huncovered
    rw [← append_nibbles w] at he ⊢
    rw [decodeWord_append_eq_error_iff]
    cases hd : decodeNibbles _ _ _ _ with
    | none => rfl
    | some i => rw [decodeWord_of_decodeNibbles hd] at he; cases he

/-! The unsupported space. -/

/-- Two nibbles make a byte exactly when they are its nibbles. -/
theorem nibble_append_eq_iff (a b : Nibble) (v : Byte) :
    a ++ b = v ↔ a = v.extractLsb' 4 4 ∧ b = v.extractLsb' 0 4 := by
  constructor
  · rintro rfl
    constructor <;> apply BitVec.eq_of_getLsbD_eq <;> intro i hi <;>
      simp only [BitVec.getLsbD_extractLsb', BitVec.getLsbD_append] <;> interval_cases i <;> simp
  · rintro ⟨rfl, rfl⟩
    exact immField_nibbles v

/-- The leading nibbles that are a row of the table by themselves (R65). -/
def ownRowNibbles : List Nibble := [0x1, 0x2, 0x3, 0x4, 0x6, 0x7, 0xA, 0xB, 0xC, 0xD]

/-- The leading nibbles by how the table uses them: a row by itself, several rows, or (0xE) none (R65, R69). -/
theorem leadingNibble_cases (n : Nibble) :
    n ∈ ownRowNibbles ∨ n = 0x0 ∨ n = 0x5 ∨ n = 0x8 ∨ n = 0x9 ∨ n = 0xE ∨ n = 0xF := by
  revert n
  decide

/-- Settles O30: each pattern of the decoder is outside the listed space, and what no pattern matches is in it, by its
leading nibble. -/
theorem unsupportedSpaceByLeadingNibble : Obligations.UnsupportedSpaceByLeadingNibble := by
  intro n0 n1 n2 n3
  rw [decodeWord_append_eq_error_iff]
  simp only [nibble_append_eq_iff, Ne]
  unfold decodeNibbles
  split
  case h_27 =>
    rcases leadingNibble_cases n0 with h | rfl | rfl | rfl | rfl | rfl | rfl
    all_goals simp_all [ownRowNibbles]
  all_goals simp

/-- Settles O31: the decoder computes on fixed bytes. -/
theorem sampleWordsDecodeRight : Obligations.SampleWordsDecodeRight := by
  unfold Obligations.SampleWordsDecodeRight
  decide

end Sys2Proof

/-! What an instruction does, in one shape for all 26 (40_step_cycle.md R82, R85, R87): one check that gives its
writes, then the commit of the program counter that 10_state.md R16 lists. Frames, invariants and the rules over every
instruction are read off this shape. -/

namespace Sys2Proof.Machine

/-- The writes of an instruction but `pc`, or the fault its check raises. -/
def State.writes (s : State) (i : Instr) : Except Fault State :=
  match i with
  | .jp _ | .jpV0 _ | .seImm _ _ | .sneImm _ _ | .seReg _ _ | .sneReg _ _ => .ok s
  | .ret => s.pop.map Prod.snd
  | .call _ => s.push s.pc
  | .cls => .ok (s.setFb Framebuffer.clear)
  | .drw x y n => (s.spriteBytes x y n).map (s.drawn x y)
  | .ldImm x nn => .ok (s.setReg x nn)
  | .addImm x nn => .ok (s.setReg x (s.reg x + nn))
  | .ldReg x y => .ok (s.setReg x (s.reg y))
  | .orReg x y => .ok (s.setReg x (s.reg x ||| s.reg y))
  | .andReg x y => .ok (s.setReg x (s.reg x &&& s.reg y))
  | .addReg x y => .ok (s.setRegThenFlag x (s.reg x + s.reg y) (carryFlag (s.reg x) (s.reg y)))
  | .subReg x y => .ok (s.setRegThenFlag x (s.reg x - s.reg y) (notBorrowFlag (s.reg x) (s.reg y)))
  | .rnd x nn => .ok (s.setReg x (Config.rndInput s.inputs &&& nn))
  | .ldFromDt x => .ok (s.setReg x s.dt)
  | .ldDt x => .ok (s.setDt (s.reg x))
  | .ldI nnn => .ok (s.setIndex nnn)
  | .ldF x => .ok (s.setIndex (glyphAddr (s.reg x)))
  | .addI x => (toAddr (addrPlus s.index (s.reg x))).map s.setIndex
  | .ldB x => s.memWrite s.index.toNat (decimalDigits (s.reg x))
  | .storeRegs x => s.memWrite s.index.toNat (s.regsUpTo x)
  | .loadRegs x => (s.memRead s.index.toNat (x.val + 1)).map s.setRegs

section
variable {α β : Type} {e : Except Fault α} {g : α → β}

/-- Going on with a mapped check. -/
theorem orRaise_map (i : Instr) (s : State) (f : β → Result) :
    orRaise i s (e.map g) f = orRaise i s e fun a => f (g a) := by
  cases e <;> rfl

/-- A mapped check that answers is the check's answer, mapped. -/
theorem exists_of_map_eq_ok {b : β} (h : e.map g = .ok b) : ∃ a, e = .ok a ∧ b = g a := by
  cases e with
  | ok a => exact ⟨a, rfl, (Except.ok.inj h).symm⟩
  | error k => cases h

end

/-- Every instruction is one check that gives its writes, then the commit of the listed `pc` (R16, R85). -/
theorem exec_eq (i : Instr) (s : State) :
    exec i s = orRaise i s (s.writes i) fun t => commitPc i s t (nextPc i s) := by
  cases i with
  | cls | jp | jpV0 | call | ldImm | addImm | ldReg | orReg | andReg | addReg | subReg | rnd | ldFromDt | ldDt | ldI | ldF
  | ldB | storeRegs => rfl
  | addI | loadRegs => rw [State.writes, orRaise_map]; rfl
  | drw x y n => rw [State.writes, orRaise_map, exec_drw]; rfl
  | seImm x nn => rw [exec_seImm]; simp [State.writes, nextPc, skipIf, State.reg]
  | sneImm x nn => rw [exec_sneImm]; simp [State.writes, nextPc, skipIf, State.reg]
  | seReg x y => rw [exec_seReg]; simp [State.writes, nextPc, skipIf, State.reg]
  | sneReg x y =>  rw [exec_sneReg]; simp [State.writes, nextPc, skipIf, State.reg]
  | ret =>
    rw [exec_ret, State.writes, orRaise_map]
    cases hp : s.pop with
    | error k => rfl
    | ok r =>
      obtain ⟨-, hcell, -⟩ := State.pop_ok (a := r.1) (t := r.2) hp
      simp [nextPc, Vector.getD, hcell]

section
variable {i : Instr} {s t u : State}

/-- Everything an instruction can do: commit its writes with the listed `pc`, in bounds, or take a fault with nothing
committed (R16, R85, R206). -/
theorem exec_cases (h : exec i s = .next u) :
    (∃ t, s.writes i = .ok t ∧ nextPc i s ≤ Config.addrMax ∧ u = t.setPc (BitVec.ofNat 12 (nextPc i s))) ∨
      ∃ k, u = s.enterFault k (encodeWord i) := by
  rw [exec_eq] at h
  rcases orRaise_cases h with ⟨t, ht, hc⟩ | ⟨k, -, hu⟩
  · rcases commitPc_cases hc with ⟨hle, hu⟩ | ⟨-, hu⟩
    · exact .inl ⟨t, ht, hle, hu⟩
    · exact .inr ⟨_, hu⟩
  · exact .inr ⟨k, hu⟩

/-- An instruction that leaves the machine running took no fault. -/
theorem exec_completed (h : exec i s = .next u) (hrun : u.halt = false) :
    ∃ t, s.writes i = .ok t ∧ nextPc i s ≤ Config.addrMax ∧ u = t.setPc (BitVec.ofNat 12 (nextPc i s)) := by
  rcases exec_cases h with hcommit | ⟨k, rfl⟩
  · exact hcommit
  · cases hrun

/-- An instruction always answers a next state. -/
theorem exec_next (i : Instr) (s : State) : ∃ u, exec i s = .next u := by
  rw [exec_eq]
  cases s.writes i with
  | ok t => exact commitPc_next i s t _
  | error k => exact ⟨_, rfl⟩

/-- `RET` writes `SP` alone, and no stack cell (R19, R103). -/
theorem State.sp_of_writes_ret (h : s.writes .ret = .ok t) : ∃ sp, t = { s with sp := sp } := by
  obtain ⟨r, hr, rfl⟩ := exists_of_map_eq_ok h
  obtain ⟨-, -, hlt, ht⟩ := State.pop_ok (a := r.1) (t := r.2) hr
  exact ⟨_, ht⟩

/-- The writes reach registers, `I`, stack, Memory, framebuffer and `DT` alone. -/
theorem State.writes_keeps (h : s.writes i = .ok t) :
    t = { s with
      regs := t.regs, index := t.index, stack := t.stack, sp := t.sp, mem := t.mem, fb := t.fb, dt := t.dt } := by
  cases i with
  | ret => obtain ⟨sp, rfl⟩ := State.sp_of_writes_ret h; rfl
  | call => obtain ⟨-, rfl⟩ := State.push_ok h; rfl
  | ldB | storeRegs => obtain ⟨-, rfl⟩ := State.memWrite_ok h; rfl
  | drw | addI | loadRegs => obtain ⟨-, -, rfl⟩ := exists_of_map_eq_ok h; rfl
  | cls | jp | jpV0 | seImm | sneImm | seReg | sneReg | ldImm | addImm | ldReg | orReg | andReg | addReg | subReg | rnd
  | ldFromDt | ldDt | ldI | ldF => cases h; rfl

/-- Which of `I`, stack, framebuffer and `DT` an instruction writes (R14, R19, R21, R22). -/
theorem State.writes_frame (h : s.writes i = .ok t) :
    ((∀ nnn, i ≠ .ldI nnn) → (∀ x, i ≠ .addI x) → (∀ x, i ≠ .ldF x) → t.index = s.index) ∧
    ((∀ nnn, i ≠ .call nnn) → t.stack = s.stack) ∧
    ((∀ nnn, i ≠ .call nnn) → i ≠ .ret → t.sp = s.sp) ∧
    (i ≠ .cls → (∀ x y n, i ≠ .drw x y n) → t.fb = s.fb) ∧
    ((∀ x, i ≠ .ldDt x) → t.dt = s.dt) := by
  cases i with
  | ret => obtain ⟨sp, rfl⟩ := State.sp_of_writes_ret h; simp
  | call => obtain ⟨-, rfl⟩ := State.push_ok h; simp
  | ldB | storeRegs => obtain ⟨-, rfl⟩ := State.memWrite_ok h; simp
  | drw => obtain ⟨-, -, rfl⟩ := exists_of_map_eq_ok h; simp [State.drawn]
  | addI => obtain ⟨-, -, rfl⟩ := exists_of_map_eq_ok h; simp
  | loadRegs => obtain ⟨-, -, rfl⟩ := exists_of_map_eq_ok h; simp
  | cls | jp | jpV0 | seImm | sneImm | seReg | sneReg | ldImm | addImm | ldReg | orReg | andReg | addReg | subReg | rnd
  | ldFromDt | ldDt | ldI | ldF => cases h; simp

/-- The writes keep every register that is no destination (R11, R13). -/
theorem State.writes_regs {k : RegIx} (h : s.writes i = .ok t) (hk : writesReg i k = false) : t.reg k = s.reg k := by
  cases i with
  | ret => obtain ⟨sp, rfl⟩ := State.sp_of_writes_ret h; rfl
  | call => obtain ⟨-, rfl⟩ := State.push_ok h; rfl
  | ldB | storeRegs => obtain ⟨-, rfl⟩ := State.memWrite_ok h; rfl
  | addI => obtain ⟨-, -, rfl⟩ := exists_of_map_eq_ok h; rfl
  | drw =>
    obtain ⟨-, -, rfl⟩ := exists_of_map_eq_ok h
    exact State.reg_setReg_other _ _ (ne_of_beq_false hk)
  | loadRegs x =>
    obtain ⟨bytes, hread, rfl⟩ := exists_of_map_eq_ok h
    rw [(State.memRead_ok hread).2, State.reg_setRegs_bytesAt, if_neg (of_decide_eq_false hk)]
  | addReg | subReg =>
    cases h
    obtain ⟨hx, hflag⟩ := Bool.or_eq_false_iff.mp hk
    exact (State.reg_setReg_other _ _ (ne_of_beq_false hflag)).trans (State.reg_setReg_other _ _ (ne_of_beq_false hx))
  | ldImm | addImm | ldReg | orReg | andReg | rnd | ldFromDt =>
    cases h
    exact State.reg_setReg_other _ _ (ne_of_beq_false hk)
  | cls | jp | jpV0 | seImm | sneImm | seReg | sneReg | ldDt | ldI | ldF => cases h; rfl

/-- The writes leave Memory alone, or are one checked write of the stored bytes from `I` up (R50). -/
theorem State.writes_mem (h : s.writes i = .ok t) :
    t.mem = s.mem ∨ ∃ bytes, bytes.length = storedBytes i ∧ s.memWrite s.index.toNat bytes = .ok t := by
  cases i with
  | ldB => exact .inr ⟨_, rfl, h⟩
  | storeRegs x => exact .inr ⟨_, s.regsUpTo_length x, h⟩
  | ret => obtain ⟨sp, rfl⟩ := State.sp_of_writes_ret h; exact .inl rfl
  | call => obtain ⟨-, rfl⟩ := State.push_ok h; exact .inl rfl
  | drw | addI | loadRegs => obtain ⟨-, -, rfl⟩ := exists_of_map_eq_ok h; exact .inl rfl
  | cls | jp | jpV0 | seImm | sneImm | seReg | sneReg | ldImm | addImm | ldReg | orReg | andReg | addReg | subReg | rnd
  | ldFromDt | ldDt | ldI | ldF => cases h; exact .inl rfl

/-- The writes keep the glyph table (R45). -/
theorem State.writes_glyphs (h : s.writes i = .ok t) : t.glyphs = s.glyphs := by
  rw [State.writes_keeps h]

/-- The writes keep every byte of Memory outside the bytes stored from `I` up (R50). -/
theorem State.writes_readByte {a : Nat} (h : s.writes i = .ok t)
    (ha : a < s.index.toNat ∨ s.index.toNat + storedBytes i ≤ a) : t.readByte a = s.readByte a := by
  rcases State.writes_mem h with hmem | ⟨bytes, hlen, hwrite⟩
  · exact State.readByte_congr (State.writes_glyphs h) hmem a
  · exact State.memWrite_read_other hwrite (hlen ▸ ha)

/-- The writes keep the canonical form of Memory. -/
theorem State.writes_wf (h : s.writes i = .ok t) (hs : s.mem.wf = true) : t.mem.wf = true := by
  rcases State.writes_mem h with hmem | ⟨bytes, -, hwrite⟩
  · rwa [hmem]
  · exact State.memWrite_wf hwrite hs

/-- A stack cell changes only to the `pc` of a `CALL` (R19, R102). -/
theorem State.writes_stack (h : s.writes i = .ok t) (k : Fin 32) :
    t.stack[k.val] = s.stack[k.val] ∨ t.stack[k.val] = s.pc := by
  by_cases hi : ∃ nnn, i = .call nnn
  · obtain ⟨nnn, rfl⟩ := hi
    obtain ⟨-, rfl⟩ := State.push_ok h
    rw [Vector.getElem_set]
    split
    · exact .inr rfl
    · exact .inl rfl
  · obtain ⟨-, hstack, -⟩ := State.writes_frame h
    exact .inl (by rw [hstack (not_exists.mp hi)])

end

/-! The frames. -/

/-- Settles O44: the writes keep the register, and so do `pc` and a fault. -/
theorem registersFrame : Obligations.RegistersFrame := by
  intro i s u k hu hk
  obtain ⟨t, ht, -, rfl⟩ | ⟨k, rfl⟩ := exec_cases hu
  · exact (State.writes_regs ht hk : t.reg k = s.reg k)
  · rfl

/-- Settles O45: the writes keep the byte, and so do `pc` and a fault. -/
theorem memoryFrame : Obligations.MemoryFrame := by
  intro i s u a hu ha
  obtain ⟨t, ht, -, rfl⟩ | ⟨k, rfl⟩ := exec_cases hu
  · exact (State.writes_readByte ht ha : t.readByte a = s.readByte a)
  · rfl

/-- Settles O46: the writes reach only the listed state, and a fault reaches the fault status alone. -/
theorem specialStateFrame : Obligations.SpecialStateFrame := by
  intro i s u hu
  obtain ⟨t, ht, -, rfl⟩ | ⟨k, rfl⟩ := exec_cases hu
  · obtain ⟨hindex, hstack, hsp, hfb, hdt⟩ := State.writes_frame ht
    refine ⟨hindex, hstack, hsp, hfb, hdt, ?_⟩
    rw [State.writes_keeps ht]
    exact ⟨rfl, rfl, rfl, rfl, rfl, .inl ⟨rfl, rfl, rfl, rfl⟩⟩
  · exact ⟨fun _ _ _ => rfl, fun _ => rfl, fun _ _ => rfl, fun _ _ => rfl, fun _ => rfl,
      rfl, rfl, rfl, rfl, rfl, .inr ⟨k, rfl⟩⟩

/-- Settles O47: an instruction that leaves the machine running did not fault, so it committed the listed `pc`. -/
theorem pcMovesAsListed : Obligations.PcMovesAsListed := by
  intro i s u _ hu hrun
  obtain ⟨t, -, hle, rfl⟩ := exec_completed hu hrun
  rw [State.setPc_pc, BitVec.toNat_ofNat, Nat.mod_eq_of_lt (Nat.lt_succ_of_le hle)]

end Sys2Proof.Machine

/-! `LD Vx, Vy`, `RND` and `ADD I, Vx` (42_alu.md R122, R127; 43_index_memory.md R141). -/

namespace Sys2Proof.Machine

section
variable (s : State) (x y : RegIx) (nn : Byte)

theorem exec_ldReg : exec (.ldReg x y) s = advance (.ldReg x y) s (s.setReg x (s.reg y)) := rfl
theorem exec_rnd : exec (.rnd x nn) s = rndWith (Config.rndInput s.inputs) x nn s := rfl
theorem exec_addI : exec (.addI x) s =
    orRaise (.addI x) s (toAddr (s.index.toNat + (s.reg x).toNat)) fun v => advance (.addI x) s (s.setIndex v) := rfl

end

/-- Settles O10: the advance commits the one register write. -/
theorem ldRegCopiesSecondIntoFirst : Obligations.LdRegCopiesSecondIntoFirst := fun x y s =>
  ⟨decodeWord_encodeWord (.ldReg x y) rfl, exec_of_advance (exec_ldReg s x y)⟩

/-- Settles O18: whatever byte is drawn, the advance commits the one register write; this step's free byte is one of
them. -/
theorem rndMasksTheDrawnByte : Obligations.RndMasksTheDrawnByte := by
  intro x nn s
  have hdraw (b : Byte) (h : s.pc.toNat + 2 ≤ 0xFFF) :
      rndWith b x nn s = .next { s with regs := s.regs.set x.val (b &&& nn), pc := s.pc + 2 } := advance_of_le h
  exact ⟨decodeWord_encodeWord (.rnd x nn) rfl, hdraw, hdraw _, (exec_of_advance (exec_rnd s x nn)).2⟩

/-- Settles O22: the sum is checked as a natural number, then the advance commits the one write of `I`. -/
theorem addIAddsOrFaults : Obligations.AddIAddsOrFaults := by
  intro x s
  have hsum := toAddr_cases (s.index.toNat + (s.reg x).toNat)
  obtain ⟨hok, herr, hpc⟩ := exec_of_orRaise_advance (exec_addI s x) fun k hk => by
    rcases hsum with ⟨-, h⟩ | ⟨-, h⟩ <;> rw [h] at hk <;> cases hk
    rfl
  refine ⟨decodeWord_encodeWord (.addI x) rfl, fun hle h => ?_, fun h => ?_, hpc⟩
  · exact hok _ (hsum.resolve_right fun hgt => Nat.not_lt.mpr h hgt.1).2 hle
  · exact herr (hsum.resolve_left fun hle => Nat.not_le.mpr h hle.1).2

end Sys2Proof.Machine

/-! The phases of a step (40_step_cycle.md section 2), its outputs and its faults. -/

namespace Sys2Proof.Machine

/-- A timer after the check, by cases: 1 off where the gate fires and the timer is not 0 (R217). -/
theorem tickDown_eq_ite (fires : Bool) (v : Byte) :
    tickDown fires v = if fires = true ∧ v ≠ 0 then v - 1 else v := by
  simp only [tickDown]
  split_ifs <;> simp_all

/-- A decoded pair of bytes is a decoded word (R61). -/
theorem decodeWord_of_decode_pair {b0 b1 : Byte} {i : Instr} {rest : List Byte} (h : decode [b0, b1] = .ok (i, rest)) :
    decodeWord (wordOfBytes b0 b1) = .ok i := by
  rw [decode] at h
  split at h
  next hd => cases h; exact hd
  next => cases h

section
variable {s t u : State} {i : Instr}

/-- A fetch away from 0xFFF (R83). -/
theorem State.fetch_of_ne (h : s.pc ≠ 0xFFF) :
    s.fetch = .ok (s.readByte s.pc.toNat ++ s.readByte (s.pc.toNat + 1)) :=
  (s.fetch_cases.resolve_right fun hf => h hf.1).2

/-- A fetch that answers was away from 0xFFF (R83). -/
theorem State.pc_ne_of_fetch {w : Word} (h : s.fetch = .ok w) : s.pc ≠ 0xFFF := by
  obtain ⟨hpc, -⟩ | ⟨-, hf⟩ := s.fetch_cases
  · exact hpc
  · rw [hf] at h; cases h

/-- A running machine whose fetch faults takes the fault with the word 0x0000 (R83). -/
theorem step_of_fetch_error {k : Fault} (h : s.halt = false) (hf : s.fetch = .error k) :
    step s = .next (s.enterFault k 0) := by
  simp [step, h, hf]

/-- The instruction a step executes is the decoded word of a running machine. -/
theorem State.nextInstr_eq_some_iff :
    s.nextInstr = some i ↔ s.halt = false ∧ ∃ w, s.fetch = .ok w ∧ decodeWord w = .ok i := by
  cases hh : s.halt with
  | true => simp [State.nextInstr, hh]
  | false =>
    cases hf : s.fetch with
    | error k => simp [State.nextInstr, hh, hf]
    | ok w => cases hd : decodeWord w <;> simp [State.nextInstr, hh, hf, hd]

/-- The step of a machine whose next instruction is known. -/
theorem step_of_nextInstr (h : s.nextInstr = some i) : step s = finishStep (exec i s) := by
  obtain ⟨hrun, w, hf, hd⟩ := State.nextInstr_eq_some_iff.mp h
  exact step_running hrun hf hd

/-- What the end of a completed step leaves: the timer check with this step's free inputs, then the next ones (R89). -/
def State.endStep (s : State) : State :=
  (s.timerCheck (Config.tickInput s.inputs) (Config.nowInput s.inputs)).nextInputs

/-- A running state ends its step with the timer check (R89). -/
theorem finishStep_of_running (h : t.halt = false) : finishStep (.next t) = .next t.endStep := by
  rw [finishStep_next, h]
  rfl

/-- A state that took a fault ends its step as it is (R89, R220). -/
theorem finishStep_of_halted (h : t.halt = true) : finishStep (.next t) = .next t := by
  rw [finishStep_next, if_pos h]

/-- The three outcomes of a step: nothing on a halted machine; a fault, taken with the word fetched (0x0000 where there
was none) and nothing else changed; or a completed instruction and its timer check (R83, R84, R88, R89, R206). -/
theorem step_outcomes (h : step s = .next t) :
    (s.halt = true ∧ t = s) ∨
    (s.halt = false ∧ ∃ k w, t = s.enterFault k w ∧ (∀ f, s.fetch = .ok f → w = f) ∧
      (∀ e, s.fetch = .error e → w = 0)) ∨
    (s.halt = false ∧ ∃ i u, s.nextInstr = some i ∧ exec i s = .next u ∧ u.halt = false ∧ t = u.endStep) := by
  obtain ⟨hh, rfl⟩ | ⟨hrun, k, hf, rfl⟩ | ⟨hrun, w, e, hf, -, rfl⟩ | ⟨hrun, w, i, u, hf, hd, hu, rfl⟩ := step_cases h
  · exact .inl ⟨hh, rfl⟩
  · exact .inr (.inl ⟨hrun, k, 0, rfl, by simp [hf], fun _ _ => rfl⟩)
  · exact .inr (.inl ⟨hrun, _, w, rfl, by simp [hf], by simp [hf]⟩)
  · cases hhalt : u.halt with
    | false => exact .inr (.inr ⟨hrun, i, u, State.nextInstr_of_decodeWord hrun hf hd, hu, hhalt, rfl⟩)
    | true =>
      refine .inr (.inl ⟨hrun, ?_⟩)
      obtain ⟨v, hv, -, rfl⟩ | ⟨k, rfl⟩ := exec_cases hu
      · rw [State.writes_keeps hv] at hhalt
        exact Bool.noConfusion (hrun.symm.trans hhalt)
      · exact ⟨k, w, by rw [encodeWord_of_decodeWord hd]; rfl, by simp [hf], by simp [hf]⟩

/-- A step that completes ran an instruction that left the machine running, then the timer check. -/
theorem completes_cases (h : Completes s t) :
    ∃ i u, s.nextInstr = some i ∧ exec i s = .next u ∧ u.halt = false ∧ t = u.endStep := by
  obtain ⟨hrun, hstep, hstill⟩ := h
  obtain ⟨hh, -⟩ | ⟨-, k, w, rfl, -⟩ | ⟨-, hdone⟩ := step_outcomes hstep
  · exact Bool.noConfusion (hh.symm.trans hrun)
  · cases hstill
  · exact hdone

end

/-- Settles O32: the step is the end of what `exec` answered, each timer counted down by its cases. -/
theorem stepRunsTheDecodedInstruction : Obligations.StepRunsTheDecodedInstruction := by
  intro s t i hrun hpc hd ht
  have hstep : step s = finishStep (.next t) := by
    rw [← ht]
    exact step_running hrun (if_pos hpc) (decodeWord_of_decode_pair hd)
  rw [hstep]
  refine ⟨finishStep_of_halted, fun h => ?_⟩
  rw [finishStep_of_running h, ← tickDown_eq_ite, ← tickDown_eq_ite]
  rfl

/-- Settles O33: the fetch answers or faults by whether `pc` is 0xFFF. -/
theorem fetchReadsTwoBytesOrFaults : Obligations.FetchReadsTwoBytesOrFaults := by
  refine fun s => ⟨State.fetch_of_ne, fun hpc hrun => ?_⟩
  have hf : s.fetch = .error .outOfBoundsAccess := (s.fetch_cases.resolve_left fun h => h.1 hpc).2
  exact step_of_fetch_error hrun hf

/-- Settles O35: the step is the identity, and every other operation but construction and load keeps `HALT`. -/
theorem haltedMachineDoesNothing : Obligations.HaltedMachineDoesNothing := by
  intro s hs
  refine ⟨step_halted hs, hs, by simp [stepOutputs, hs], fun op t hop ht => ?_⟩
  cases op with
  | construct g now => exact .inl ⟨g, now, rfl⟩
  | load now prog => exact .inr ⟨now, prog, rfl⟩
  | step =>
    rw [hostOp, step_halted hs] at hop
    cases hop
    exact Bool.noConfusion (hs.symm.trans ht)
  | keyDown | keyUp | readFramebuffer | readFaultStatus =>
    cases hop
    exact Bool.noConfusion (hs.symm.trans ht)

/-- Settles O36: each phase of a step hands on or takes a fault, and `exec` always answers a next state. -/
theorem everyStateHasAStep : Obligations.EveryStateHasAStep := by
  intro s
  cases hh : s.halt with
  | true => exact ⟨s, step_halted hh⟩
  | false =>
    cases hf : s.fetch with
    | error k => exact ⟨_, step_of_fetch_error hh hf⟩
    | ok w =>
      cases hd : decodeWord w with
      | error e => exact ⟨_, step_of_decodeWord_error hh hf hd⟩
      | ok i =>
        obtain ⟨u, hu⟩ := exec_next i s
        exact ⟨_, by rw [step_running hh hf hd, hu, finishStep_next]⟩

/-- The code of a fault is one of the four (R205). -/
theorem Fault.code_cases (k : Fault) : k.code = 1 ∨ k.code = 2 ∨ k.code = 3 ∨ k.code = 4 := by
  cases k <;> decide

/-- Settles O37: of the three outcomes of a step the fault is the one that halts a running machine. -/
theorem faultsArePrecise : Obligations.FaultsArePrecise := by
  intro s t hrun hstep ht
  obtain ⟨hh, -⟩ | ⟨-, k, w, rfl, hok, herr⟩ | ⟨-, i, u, -, -, hu, rfl⟩ := step_outcomes hstep
  · exact Bool.noConfusion (hh.symm.trans hrun)
  · exact ⟨k.code, w, rfl, k.code_cases, hok, herr, rfl, rfl⟩
  · exact Bool.noConfusion (hu.symm.trans ht)

/-- `CLS` and `DRW` are the instructions that raise `redraw` (R90). -/
theorem raisesRedraw_iff (i : Instr) : raisesRedraw i = true ↔ i = .cls ∨ ∃ x y n, i = .drw x y n := by
  cases i <;> simp [raisesRedraw]

/-- Settles O58: `redraw` is read off the state after the step and the instruction it executed. -/
theorem redrawOnlyForClsAndDrw : Obligations.RedrawOnlyForClsAndDrw := by
  refine fun s t _ => ⟨rfl, ?_⟩
  cases hi : s.nextInstr with
  | none => simp [stepOutputs, hi]
  | some i => simp [stepOutputs, hi, raisesRedraw_iff]

/-- Settles O43: a completed step is one timer check on what its instruction left; the clock's verdict is whether 1/60 of
a second has gone by. -/
theorem gateKeepsItsReference : Obligations.GateKeepsItsReference := by
  refine ⟨fun s t h => ?_, fun s now => ⟨fun hle => ?_, fun hlt => ?_⟩⟩
  · obtain ⟨i, u, hi, hu, -, rfl⟩ := completes_cases h
    obtain ⟨-, -, -, -, hdt, hst, -, htref, -, hinputs, -⟩ := specialStateFrame i s u hu
    rw [← hinputs, ← htref, ← hst]
    refine ⟨rfl, tickDown_toNat _ u.st, fun hn => ?_⟩
    rw [← hdt fun x hx => hn x (hx ▸ hi)]
    exact tickDown_toNat _ u.dt
  · have hfires : gateVerdict now s.tref = true := decide_eq_true hle
    rw [hfires]
    exact ⟨rfl, tickDown_true_toNat s.dt, tickDown_true_toNat s.st⟩
  · have hwaits : gateVerdict now s.tref = false := decide_eq_false (Nat.not_le.mpr hlt)
    rw [hwaits, State.timerCheck, tickDown_false, tickDown_false]
    rfl

end Sys2Proof.Machine

/-! The machine's invariants (10_state.md R28; `State.Inv`), construction and load (70_reset_and_hazards.md R240 to
R243). -/

namespace Sys2Proof.Machine

/-! What keeps the invariants. -/

/-- Construction meets the invariants (R28, R240). -/
theorem State.inv_construct (g : Vector Byte Config.glyphBytes) (now k : Nat) : (State.construct g now k).Inv where
  memoryCanonical := rfl
  stackCellsFetchable j := by simp [State.construct]
  soundTimerZero := rfl
  statusClearWhileRunning _ := ⟨rfl, rfl, rfl⟩
  kindKnownWhenHalted h := by cases h

section
variable {s t : State} {i : Instr}

/-- Fault entry keeps the invariants: it records one of the four kinds (R205, R206). -/
theorem State.Inv.enterFault (h : s.Inv) (k : Fault) (w : Word) : (s.enterFault k w).Inv where
  memoryCanonical := h.memoryCanonical
  stackCellsFetchable := h.stackCellsFetchable
  soundTimerZero := h.soundTimerZero
  statusClearWhileRunning hrun := by cases hrun
  kindKnownWhenHalted _ := ⟨k, rfl⟩

/-- The invariants speak of the writable Memory, the stack cells, `ST` and the fault status alone. -/
theorem State.Inv.congr (h : s.Inv) (hmem : t.mem = s.mem) (hstack : t.stack = s.stack) (hst : t.st = s.st)
    (hstatus : t.faultStatus = s.faultStatus) : t.Inv := by
  obtain ⟨hhalt, hfkind, hfinsn, hfaddr⟩ := FaultStatus.mk.inj hstatus
  constructor
  · exact hmem ▸ h.memoryCanonical
  · exact hstack ▸ h.stackCellsFetchable
  · exact hst ▸ h.soundTimerZero
  · rw [hhalt, hfkind, hfinsn, hfaddr]
    exact h.statusClearWhileRunning
  · rw [hhalt, hfkind]
    exact h.kindKnownWhenHalted

/-- The timer check keeps the invariants: `ST` stays at 0 (R217). -/
theorem State.Inv.endStep (h : s.Inv) : s.endStep.Inv := by
  refine h.congr rfl rfl ?_ rfl
  rw [h.soundTimerZero]
  exact (congrArg (tickDown _) h.soundTimerZero).trans (tickDown_zero _)

/-- The writes of a fetched instruction keep the invariants: a stack cell changes only to the `pc` it was fetched at,
which is not 0xFFF (R28, R102). -/
theorem State.Inv.writes (h : s.Inv) (hpc : s.pc ≠ 0xFFF) (ht : s.writes i = .ok t) : t.Inv := by
  have hkeeps := State.writes_keeps ht
  constructor
  case memoryCanonical => exact State.writes_wf ht h.memoryCanonical
  case stackCellsFetchable =>
    intro k
    rcases State.writes_stack ht k with hk | hk <;> rw [hk]
    · exact h.stackCellsFetchable k
    · exact hpc
  all_goals rw [hkeeps]
  case soundTimerZero => exact h.soundTimerZero
  case statusClearWhileRunning => exact h.statusClearWhileRunning
  case kindKnownWhenHalted => exact h.kindKnownWhenHalted

/-- A step that runs an instruction fetched it at an address below 0xFFF (R83). -/
theorem State.pc_ne_of_nextInstr (h : s.nextInstr = some i) : s.pc ≠ 0xFFF := by
  obtain ⟨-, w, hf, -⟩ := State.nextInstr_eq_some_iff.mp h
  exact State.pc_ne_of_fetch hf

end

/-- Settles O38: each of the three outcomes of a step is built of operations that keep the invariants. -/
theorem stepKeepsInvariant : Obligations.StepKeepsInvariant := by
  intro s t hs hstep
  obtain ⟨-, rfl⟩ | ⟨-, k, w, rfl, -⟩ | ⟨-, i, u, hi, hu, hrun, rfl⟩ := step_outcomes hstep
  · exact hs
  · exact hs.enterFault k w
  · obtain ⟨v, hv, -, rfl⟩ := exec_completed hu hrun
    have hcommitted : (v.setPc (BitVec.ofNat 12 (nextPc i s))).Inv :=
      (hs.writes (State.pc_ne_of_nextInstr hi) hv).congr rfl rfl rfl rfl
    exact hcommitted.endStep

/-- Settles O39: reset is a construction. -/
theorem resetMeetsInvariant : Obligations.ResetMeetsInvariant := State.inv_construct _ _ _

/-! Load. -/

section
variable (s : State) (now : Nat) {prog : List Byte}

/-- What a load starts from: the reset values, the glyph table and `KEYS` kept (R241). -/
def State.cleared : State := { State.construct s.glyphs now s.inputs with keys := s.keys }

/-- A program that fits is copied to 0x200 (R241). -/
theorem State.load_of_fits (h : prog.length ≤ 3584) :
    s.load now prog = { s.cleared now with mem := Memory.writeAll [] 0x200 prog } := if_pos h

/-- A program too long is not copied, and the machine halts (R242). -/
theorem State.load_of_tooLong (h : 3584 < prog.length) :
    s.load now prog = (s.cleared now).enterFault .outOfBoundsAccess 0 := if_neg (Nat.not_le.mpr h)

/-- The program's range lies inside Memory (R5). -/
theorem progRange_in_memory (h : prog.length ≤ 3584) : 0x200 + prog.length ≤ Config.addrMax + 1 := by
  simp only [Config.addrMax]
  omega

/-- Load meets the invariants, whatever the program. -/
theorem State.inv_load (prog : List Byte) : (s.load now prog).Inv := by
  have hcleared : (s.cleared now).Inv := (State.inv_construct s.glyphs now s.inputs).congr rfl rfl rfl rfl
  rcases Nat.lt_or_ge 3584 prog.length with hlong | hfits
  · rw [State.load_of_tooLong s now hlong]
    exact hcleared.enterFault _ _
  · rw [State.load_of_fits s now hfits]
    exact {
      hcleared with
      memoryCanonical := Memory.wf_writeAll prog Memory.wf_nil (by decide) (progRange_in_memory hfits) }

end

/-- Settles O40: the one operation that starts from the state it meets and is not a step changes `KEYS` at most. -/
theorem hostOperationsKeepInvariant : Obligations.HostOperationsKeepInvariant := by
  intro op s t hs hop
  cases op with
  | construct g now => cases hop; exact State.inv_construct g now _
  | load now prog => cases hop; exact s.inv_load now prog
  | step => exact stepKeepsInvariant s t hs hop
  | keyDown | keyUp => cases hop; exact hs.congr rfl rfl rfl rfl
  | readFramebuffer | readFaultStatus => cases hop; exact hs

/-! The glyph table. -/

section
variable {s t : State}

/-- Below 0x050 the glyph table is read (R41). -/
theorem State.readByte_glyphs (s : State) {a : Nat} (h : a < Config.glyphBytes) : s.readByte a = s.glyphs[a] := dif_pos h

/-- A step keeps the glyph table (R45). -/
theorem glyphs_of_step (h : step s = .next t) : t.glyphs = s.glyphs := by
  obtain ⟨-, rfl⟩ | ⟨-, k, w, rfl, -⟩ | ⟨-, i, u, -, hu, hrun, rfl⟩ := step_outcomes h
  · rfl
  · rfl
  · obtain ⟨v, hv, -, rfl⟩ := exec_completed hu hrun
    exact (State.writes_glyphs hv : v.glyphs = s.glyphs)

/-- Load keeps the glyph table (R241). -/
theorem State.load_glyphs (s : State) (now : Nat) (prog : List Byte) : (s.load now prog).glyphs = s.glyphs := by
  rcases Nat.lt_or_ge 3584 prog.length with hlong | hfits
  · rw [State.load_of_tooLong s now hlong]; rfl
  · rw [State.load_of_fits s now hfits]; rfl

end

/-- Settles O41: no operation but construction reaches the field of the table, and nothing else is read there. -/
theorem glyphTableNeverChanges : Obligations.GlyphTableNeverChanges := by
  refine ⟨fun g now k a h => State.readByte_glyphs _ h, fun op s t a hnot hop ha => ?_⟩
  suffices hg : t.glyphs = s.glyphs by
    rw [State.readByte_glyphs t ha, State.readByte_glyphs s ha, hg]
  cases op with
  | construct g now => exact absurd rfl (hnot g now)
  | load now prog => cases hop; exact s.load_glyphs now prog
  | step => exact glyphs_of_step hop
  | keyDown | keyUp | readFramebuffer | readFaultStatus => cases hop; rfl

/-- Settles O53: each is a field of `State.construct`. -/
theorem constructionResetsEverything : Obligations.ConstructionResetsEverything := fun _ _ _ =>
  ⟨fun _ => Vector.getElem_replicate _, fun _ => Vector.getElem_replicate _, fun _ => rfl,
    fun _ => Framebuffer.cell_clear _ _, rfl, rfl, rfl, rfl, rfl, rfl, rfl, rfl⟩

/-- Settles O54: the copy is a sequence of writes to a Memory of zeros; a program too long takes the fault. -/
theorem loadResetsAndCopies : Obligations.LoadResetsAndCopies := by
  refine fun s now prog => ⟨fun hfits => ?_, fun hlong => State.load_of_tooLong s now hlong⟩
  rw [State.load_of_fits s now hfits]
  refine ⟨fun k hk => ?_, fun a ha hout => ?_, rfl⟩
  · rw [State.readByte_ram _ (by simp only [Config.glyphBytes]; omega)]
    exact Memory.read_writeAll prog Memory.wf_nil (by decide) (progRange_in_memory hfits) hk
  · rw [State.readByte_ram _ ha]
    exact Memory.read_writeAll_other [] prog hout

/-- A running machine at 0x200 with nothing in its writable Memory halts on the word 0x0000 (R252). -/
theorem step_of_empty {s : State} (hrun : s.halt = false) (hpc : s.pc = 0x200) (hmem : s.mem = []) :
    step s = .next (s.haltedBy 1 0x0000) := by
  have hread (a : Nat) (ha : Config.glyphBytes ≤ a) : s.readByte a = 0 := by
    rw [State.readByte_ram s ha, hmem]
    rfl
  have hf : s.fetch = .ok 0x0000 := by
    rw [State.fetch_of_ne (by rw [hpc]; decide), hpc, hread _ (by decide), hread _ (by decide)]
    rfl
  exact step_of_decodeWord_error (e := .unsupported 0x0000) hrun hf (by decide)

/-- Settles O55: construction, and a load of no bytes, leave the writable Memory empty and `pc` at 0x200. -/
theorem unloadedMachineFaultsAtOnce : Obligations.UnloadedMachineFaultsAtOnce :=
  ⟨fun _ _ _ => step_of_empty rfl rfl rfl, fun _ _ => step_of_empty rfl rfl rfl⟩

end Sys2Proof.Machine

/-! Parts of the state an instruction or a step does not look at: `KEYS` (decision D28), the position in the free inputs
(decision D24), the bytes a skip passes over (41_control_flow.md R108). Each is a replacement of that part which the
operations commute with. -/

namespace Sys2Proof.Machine

/-- A replacement of part of the state that commutes with a commit and with fault entry. -/
structure ExecOverlay (g : State → State) : Prop where
  setPc : ∀ s v, (g s).setPc v = g (s.setPc v)
  enterFault : ∀ s k w, (g s).enterFault k w = g (s.enterFault k w)

/-- One that the halted check and the timer check of a step do not see either. -/
structure StepOverlay (g : State → State) : Prop extends ExecOverlay g where
  halt : ∀ s, (g s).halt = s.halt
  endStep : ∀ s, (g s).endStep = g s.endStep

section
variable {g : State → State} {i : Instr} {s t : State}

/-- An instruction whose writes and new `pc` commute with a replacement does so as a whole. -/
theorem ExecOverlay.exec_comm (hg : ExecOverlay g) (hw : (g s).writes i = (s.writes i).map g)
    (hpc : nextPc i (g s) = nextPc i s) (h : exec i s = .next t) : exec i (g s) = .next (g t) := by
  rw [exec_eq] at h
  rw [exec_eq, hw, orRaise_map, hpc]
  rcases orRaise_cases h with ⟨v, hv, hc⟩ | ⟨k, hk, rfl⟩
  · rw [hv, orRaise_ok]
    rcases commitPc_cases hc with ⟨hle, rfl⟩ | ⟨hgt, rfl⟩
    · rw [commitPc_of_le hle, hg.setPc]
    · rw [commitPc_of_gt hgt, hg.enterFault]
  · rw [hk, orRaise_error, hg.enterFault]

/-- A step commutes with a replacement that its fetch does not see and its instruction commutes with. -/
theorem StepOverlay.step_comm (hg : StepOverlay g) (hf : (g s).fetch = s.fetch)
    (hexec : ∀ i u, s.nextInstr = some i → exec i s = .next u → exec i (g s) = .next (g u)) (h : step s = .next t) :
    step (g s) = .next (g t) := by
  have hrun' (hrun : s.halt = false) : (g s).halt = false := (hg.halt s).trans hrun
  obtain ⟨hh, rfl⟩ | ⟨hrun, k, hk, rfl⟩ | ⟨hrun, w, e, hw, hd, rfl⟩ | ⟨hrun, w, i, u, hw, hd, hu, rfl⟩ := step_cases h
  · exact step_halted ((hg.halt t).trans hh)
  · rw [step_of_fetch_error (hrun' hrun) (hf.trans hk), hg.enterFault]
  · rw [step_of_decodeWord_error (hrun' hrun) (hf.trans hw) hd, hg.enterFault]
  · rw [step_running (hrun' hrun) (hf.trans hw) hd, hexec i u (State.nextInstr_of_decodeWord hrun hw hd) hu,
      finishStep_next, hg.halt]
    split
    · rfl
    · exact congrArg _ (hg.endStep u)

end

/-! `KEYS` and the position in the free inputs. -/

/-- The state with other `KEYS` and another position in the free inputs, each made from the old one. -/
def State.mapUnread (f : BitVec 16 → BitVec 16) (p : Nat → Nat) (s : State) : State :=
  { s with keys := f s.keys, inputs := p s.inputs }

section
variable (f : BitVec 16 → BitVec 16) (p : Nat → Nat) (s : State)

/-- Neither is seen by a commit or by fault entry. -/
theorem execOverlay_mapUnread : ExecOverlay (State.mapUnread f p) where
  setPc _ _ := rfl
  enterFault _ _ _ := rfl

/-- A push sees neither. -/
theorem State.push_mapUnread (v : Addr) : (s.mapUnread f p).push v = (s.push v).map (State.mapUnread f p) := by
  simp only [State.push, apply_dite (Except.map _)]
  rfl

/-- A pop sees neither. -/
theorem State.pop_mapUnread : (s.mapUnread f p).pop = s.pop.map (Prod.map id (State.mapUnread f p)) := by
  simp only [State.pop, apply_dite (Except.map _)]
  rfl

/-- A checked write sees neither. -/
theorem State.memWrite_mapUnread (a : Nat) (bytes : List Byte) :
    (s.mapUnread f p).memWrite a bytes = (s.memWrite a bytes).map (State.mapUnread f p) := by
  simp only [State.memWrite, apply_ite (Except.map _)]
  rfl

/-- What a check that does not see a replacement gives is replaced afterwards. -/
theorem map_eq_map_map {α β : Type} {g : β → β} {h h' : α → β} (e : Except Fault α) (hg : ∀ a, h' a = g (h a)) :
    e.map h' = (e.map h).map g := by
  cases e with
  | error k => rfl
  | ok a => exact congrArg _ (hg a)

/-- Neither is seen by an instruction's check or writes, but the position by `RND` (R91). -/
theorem State.writes_mapUnread {i : Instr} (hrnd : ∀ x nn, i = .rnd x nn → p s.inputs = s.inputs) :
    (s.mapUnread f p).writes i = (s.writes i).map (State.mapUnread f p) := by
  cases i with
  | ret => rw [State.writes, State.pop_mapUnread, State.writes]; cases s.pop <;> rfl
  | call => exact s.push_mapUnread f p s.pc
  | ldB | storeRegs => exact s.memWrite_mapUnread f p _ _
  | drw x y n => exact map_eq_map_map (s.spriteBytes x y n) fun _ => rfl
  | addI x => exact map_eq_map_map (toAddr _) fun _ => rfl
  | loadRegs x => exact map_eq_map_map (s.memRead _ _) fun _ => rfl
  | rnd x nn =>
    have hp : (s.mapUnread f p).inputs = s.inputs := hrnd x nn rfl
    rw [State.writes, hp]
    rfl
  | cls | jp | jpV0 | seImm | sneImm | seReg | sneReg | ldImm | addImm | ldReg | orReg | andReg | addReg | subReg
  | ldFromDt | ldDt | ldI | ldF => rfl

/-- Neither is seen by the new `pc` (R16). -/
theorem nextPc_mapUnread (i : Instr) : nextPc i (s.mapUnread f p) = nextPc i s := by
  cases i <;> rfl

variable {s}

/-- An instruction sees neither, but the position `RND`. -/
theorem exec_mapUnread {i : Instr} {t : State} (hrnd : ∀ x nn, i = .rnd x nn → p s.inputs = s.inputs)
    (h : exec i s = .next t) : exec i (s.mapUnread f p) = .next (t.mapUnread f p) :=
  (execOverlay_mapUnread f p).exec_comm (s.writes_mapUnread f p hrnd) (nextPc_mapUnread f p s i) h

end

/-- Settles O57: the position is in no check, no write and no new `pc` of another instruction. -/
theorem onlyRndReadsTheRandomByte : Obligations.OnlyRndReadsTheRandomByte := fun _ _ _ k hi h =>
  exec_mapUnread id (fun _ => k) (fun x nn hx => absurd hx (hi x nn)) h

/-- `KEYS` is not seen by the halted check and the timer check of a step. -/
theorem stepOverlay_keys (f : BitVec 16 → BitVec 16) : StepOverlay (State.mapUnread f id) where
  toExecOverlay := execOverlay_mapUnread f id
  halt _ := rfl
  endStep _ := rfl

/-- A key's bit of the latch, by its number. -/
theorem getLsbD_keyBit (k j : Fin 16) : ((1#16) <<< k.val).getLsbD j.val = decide (j = k) := by
  revert k j
  decide

/-- Settles O56: a key event is one bit of the latch, and the latch is in no phase of a step. -/
theorem keysNeverInfluenceARun : Obligations.KeysNeverInfluenceARun := by
  refine ⟨fun s k j => ⟨?_, ?_, rfl, rfl⟩, fun s t keys h => ?_⟩
  · rw [State.keyDown_keys, BitVec.getLsbD_or, getLsbD_keyBit, Bool.or_comm]
  · rw [State.keyUp_keys, BitVec.getLsbD_and, BitVec.getLsbD_not, getLsbD_keyBit, Bool.and_comm, decide_eq_true j.isLt,
      Bool.true_and]
  · exact (stepOverlay_keys fun _ => keys).step_comm rfl (fun _ _ _ hu => exec_mapUnread _ id (fun _ _ _ => rfl) hu) h

/-! The bytes a skip passes over. -/

/-- The writable Memory is not seen by a commit, by fault entry, or by the halted check and the timer check. -/
theorem stepOverlay_mem (m : Memory) : StepOverlay fun s => { s with mem := m } where
  setPc _ _ := rfl
  enterFault _ _ _ := rfl
  halt _ := rfl
  endStep _ := rfl

/-- Settles O48: a skip's condition is on registers, and it commits nothing but `pc`. -/
theorem skipIgnoresTheSkippedBytes : Obligations.SkipIgnoresTheSkippedBytes := by
  intro s t m i hskip hi hfetch h
  refine (stepOverlay_mem m).step_comm hfetch (fun j u hj hu => ?_) h
  obtain rfl : i = j := Option.some.inj (hi.symm.trans hj)
  obtain ⟨x, nn, rfl | rfl⟩ | ⟨x, y, rfl | rfl⟩ := hskip
  all_goals exact (stepOverlay_mem m).exec_comm rfl rfl hu

end Sys2Proof.Machine

/-! Two instructions in a row, and one instruction for ever: CALL and RET, a block store and what reads it, DRW twice, a
jump to itself. -/

namespace Sys2Proof.Machine

/-! CALL and RET (41_control_flow.md). -/

/-- A push moves `SP` off 0 and back (R102, R103). -/
theorem sp_push_pop {n : Fin 33} (h : n ≠ 32) : n + 1 ≠ 0 ∧ n + 1 - 1 = n ∧ (n + 1).val - 1 = n.val ∧ n.val < 32 := by
  revert n
  decide

/-- Settles O49: the cell the call wrote is the one the return reads. -/
theorem callThenReturnComesBack : Obligations.CallThenReturnComesBack := by
  intro nnn s t hsp hpc ht u husp hustack
  obtain ⟨-, hcall, -⟩ := callPushesItsAddress nnn s
  rw [hcall hsp] at ht
  cases ht
  obtain ⟨hne, hback, hcell, hroom⟩ := sp_push_pop hsp
  obtain ⟨-, -, hret⟩ := retReturnsPastTheCall u
  have htop : u.stack[u.sp.val - 1]? = some s.pc := by
    rw [husp, hustack]
    simp [hcell, hroom]
  have hexec := (hret s.pc (husp ▸ hne) htop).1 hpc
  rw [hexec, husp]
  simp only [hback]

/-! A block store, and what reads the bytes it stored (43_index_memory.md, 20_memory.md section 4). -/

section
variable {x : RegIx} {s t : State}

/-- A block store that completes stored the registers inside the writable Memory, and changed nothing else but `pc`
(R144). -/
theorem storeRegs_completed (hwf : s.mem.wf = true) (h : exec (.storeRegs x) s = .next t) (hrun : t.halt = false) :
    s.index.toNat + x.val ≤ 0xFFF ∧ s.pc.toNat + 2 ≤ 0xFFF ∧
      (∀ k : RegIx, k ≤ x → t.readByte (s.index.toNat + k.val) = s.regs[k.val]) ∧
      t = { s with mem := t.mem, pc := s.pc + 2 } := by
  obtain ⟨-, hstore, hrange, hpc⟩ := storeRegsStoresRegisters x s hwf
  have hfault (w : Word) (hf : exec (.storeRegs x) s = .next (s.haltedBy 4 w)) : False := by
    rw [hf] at h
    cases h
    cases hrun
  have hpc' : s.pc.toNat + 2 ≤ 0xFFF := Nat.le_of_not_lt fun hgt => hfault _ (hpc hgt)
  have hle : s.index.toNat + x.val ≤ 0xFFF := Nat.le_of_not_lt fun hgt => hfault _ (hrange (.inl hgt))
  have hglyphs : 0x04F < s.index.toNat := Nat.lt_of_not_le fun hgt => hfault _ (hrange (.inr hgt))
  obtain ⟨v, hv, hread, -, hframe⟩ := hstore hpc' hle hglyphs
  rw [hv] at h
  cases h
  exact ⟨hle, hpc', hread, hframe⟩

end

/-- Settles O50: the load reads each byte where the store put it. -/
theorem storeThenLoadGivesTheRegisters : Obligations.StoreThenLoadGivesTheRegisters := by
  intro x s t hwf _ ht hrun u hmem hglyphs hindex hpc
  obtain ⟨hle, -, hread, -⟩ := storeRegs_completed hwf ht hrun
  obtain ⟨-, hload, -⟩ := loadRegsLoadsRegisters x u
  obtain ⟨v, hv, hregs, -⟩ := hload hpc (hindex ▸ hle)
  refine ⟨v, hv, fun k => ?_⟩
  rw [hregs k]
  split
  next hk => rw [hindex, State.readByte_congr hglyphs hmem, hread k hk]
  next => rfl

/-- The address 2 further, where that does not pass 0xFFF. -/
theorem toNat_add_two {a : Addr} (h : a.toNat + 2 ≤ 0xFFF) : (a + 2).toNat = a.toNat + 2 :=
  (BitVec.toNat_add a 2).trans (Nat.mod_eq_of_lt (Nat.lt_succ_of_le h))

/-- Settles O51: `pc` has come to the two bytes stored, and the timer check reaches neither. -/
theorem nextFetchSeesTheStore : Obligations.NextFetchSeesTheStore := by
  intro x s t hwf _ hx hindex hi hstep hrun
  obtain ⟨hrun', -⟩ := State.nextInstr_eq_some_iff.mp hi
  obtain ⟨j, u, hj, hu, hurun, rfl⟩ := completes_cases ⟨hrun', hstep, hrun⟩
  obtain rfl : .storeRegs x = j := Option.some.inj (hi.symm.trans hj)
  obtain ⟨hle, hpc, hread, hframe⟩ := storeRegs_completed hwf hu hurun
  have hupc : u.pc.toNat = s.index.toNat := by
    rw [hframe, hindex]
    exact toNat_add_two hpc
  have hfetch : u.fetch = .ok (wordOfBytes (u.readByte u.pc.toNat) (u.readByte (u.pc.toNat + 1))) :=
    if_pos (by simp only [Config.addrMax]; omega)
  have h0 : u.readByte s.index.toNat = s.regs[0] := hread 0 (Fin.zero_le x)
  have h1 : u.readByte (s.index.toNat + 1) = s.regs[1] := hread 1 (Fin.le_def.mpr hx)
  rw [hupc, h0, h1] at hfetch
  exact hfetch

/-! DRW twice (44_display.md). -/

/-- The framebuffer is its cells. -/
theorem Framebuffer.ext_cell {f g : Framebuffer} (h : ∀ row col, f.cell row col = g.cell row col) : f = g := by
  ext row hrow col hcol
  have := h row col
  simpa [Framebuffer.cell, Vector.getD, hrow, hcol] using this

section
variable {fb : Framebuffer} {s : State} {a n cx cy : Nat}

/-- Drawing a sprite twice at one place gives the framebuffer back: each cell is exclusive-or'd twice with one bit
(R167). -/
theorem drawSprite_twice (hfit : spriteFits cx cy n = true) :
    (drawSprite (drawSprite fb cx cy (s.bytesAt a n)).1 cx cy (s.bytesAt a n)).1 = fb := by
  refine Framebuffer.ext_cell fun row col => ?_
  rw [cell_drawSprite_bytesAt hfit, cell_drawSprite_bytesAt hfit, Bool.xor_assoc, Bool.xor_self, Bool.xor_false]

/-- A cell the sprite targets, after drawing it. -/
theorem cell_drawSprite_target (hfit : spriteFits cx cy n = true) {i j : Nat} (hi : i < n) (hj : j < 8) :
    (drawSprite fb cx cy (s.bytesAt a n)).1.cell (cy + i) (cx + j) =
      (fb.cell (cy + i) (cx + j) ^^ (s.readByte (a + i)).getLsbD (7 - j)) := by
  rw [cell_drawSprite_bytesAt hfit, decide_eq_true (by omega), Bool.true_and, Nat.add_sub_cancel_left,
    Nat.add_sub_cancel_left]

/-- The second draw collides where a sprite bit 1 met a cell that was 0 before the first (R164, log entry 13). -/
theorem collision_drawSprite_twice (hfit : spriteFits cx cy n = true) :
    (drawSprite (drawSprite fb cx cy (s.bytesAt a n)).1 cx cy (s.bytesAt a n)).2 = true ↔
      ∃ i j : Nat, i < n ∧ j < 8 ∧ (s.readByte (a + i)).getLsbD (7 - j) = true ∧ fb.cell (cy + i) (cx + j) = false := by
  rw [collision_drawSprite_bytesAt]
  refine exists_congr fun i => exists_congr fun j => and_congr_right fun hi => and_congr_right fun hj =>
    and_congr_right fun hbit => ?_
  rw [cell_drawSprite_target hfit hi hj, hbit, Bool.xor_true, Bool.not_eq_true']

end

section
variable {s t : State} {x y : RegIx} {n : Nat}

/-- Once `DRW`'s checks pass, its sprite fits the grid and is the bytes from `I` up (R163). -/
theorem State.spriteBytes_ok {sprite : List Byte} (h : s.spriteBytes x y n = .ok sprite) :
    spriteFits (s.reg x).toNat (s.reg y).toNat n = true ∧ sprite = s.bytesAt s.index.toNat n := by
  rw [State.spriteBytes] at h
  split at h
  next hfit => exact ⟨hfit, (State.memRead_ok h).2⟩
  next => cases h

/-- A draw that completes passed its checks, and is the drawing with `pc` 2 further. -/
theorem drw_completed (h : exec (.drw x y n) s = .next t) (hrun : t.halt = false) :
    ∃ sprite, s.spriteBytes x y n = .ok sprite ∧ t = (s.drawn x y sprite).setPc (s.pc + 2) := by
  rw [exec_drw] at h
  obtain ⟨sprite, hsprite, h⟩ | ⟨k, -, rfl⟩ := orRaise_cases h
  · obtain ⟨-, rfl⟩ | ⟨-, rfl⟩ := advance_cases h
    · exact ⟨sprite, hsprite, rfl⟩
    · cases hrun
  · cases hrun

/-- A draw whose checks pass completes, its new `pc` in bounds (R86). -/
theorem exec_drw_of_le {sprite : List Byte} (h : s.spriteBytes x y n = .ok sprite) (hpc : s.pc.toNat + 2 ≤ 0xFFF) :
    exec (.drw x y n) s = .next ((s.drawn x y sprite).setPc (s.pc + 2)) := by
  rw [exec_drw, h, orRaise_ok]
  exact advance_of_le hpc

variable (s) (sprite : List Byte) (pc : Addr)

/-- A register other than the flag is kept by a draw (R165). -/
theorem State.reg_drawn {k : RegIx} (hk : k ≠ flagReg) : ((s.drawn x y sprite).setPc pc).reg k = s.reg k :=
  State.reg_setReg_other _ _ hk

/-- A second draw passes the same checks and reads the same sprite: no draw writes `I` or Memory. -/
theorem State.spriteBytes_drawn (hx : x ≠ flagReg) (hy : y ≠ flagReg) :
    ((s.drawn x y sprite).setPc pc).spriteBytes x y n = s.spriteBytes x y n := by
  rw [State.spriteBytes, State.reg_drawn s sprite pc hx, State.reg_drawn s sprite pc hy]
  rfl

/-- A second draw is at the same place, on the framebuffer of the first. -/
theorem State.drawing_drawn (hx : x ≠ flagReg) (hy : y ≠ flagReg) :
    ((s.drawn x y sprite).setPc pc).drawing x y sprite =
      drawSprite (s.drawing x y sprite).1 (s.reg x).toNat (s.reg y).toNat sprite := by
  rw [State.drawing, State.reg_drawn s sprite pc hx, State.reg_drawn s sprite pc hy]
  rfl

end

/-- Settles O52: the second draw reads the coordinates and the sprite of the first, so it draws the same sprite at the
same place. -/
theorem drawingTwiceRestores : Obligations.DrawingTwiceRestores := by
  intro x y n s t hx hy _ hpc ht hrun
  obtain ⟨sprite, hsprite, rfl⟩ := drw_completed ht hrun
  obtain ⟨hfit, rfl⟩ := State.spriteBytes_ok hsprite
  have hpc' : (s.pc + 2).toNat + 2 ≤ 0xFFF := by
    rw [toNat_add_two (by omega)]
    exact hpc
  have hdrawing := s.drawing_drawn (s.bytesAt s.index.toNat n) (s.pc + 2) hx hy
  refine ⟨_, exec_drw_of_le ((s.spriteBytes_drawn _ _ hx hy).trans hsprite) hpc', ?_, ?_⟩
  · exact (congrArg Prod.fst hdrawing).trans (drawSprite_twice hfit)
  · rw [State.setPc_regs, State.drawn_flag, hdrawing]
    obtain ⟨hbyte, hone⟩ := ite_one_zero_eq
      (drawSprite (s.drawing x y (s.bytesAt s.index.toNat n)).1 (s.reg x).toNat (s.reg y).toNat
        (s.bytesAt s.index.toNat n)).2
    exact ⟨hbyte, hone.trans (collision_drawSprite_twice hfit)⟩

/-! A jump to itself (70_reset_and_hazards.md section 3). -/

/-- A step of a jump to itself is its timer check. -/
theorem step_jp_self {s : State} (h : s.nextInstr = some (.jp s.pc)) : step s = .next s.endStep := by
  obtain ⟨hrun, -⟩ := State.nextInstr_eq_some_iff.mp h
  rw [step_of_nextInstr h, exec_jp, commitPc_toNat]
  exact finishStep_of_running hrun

/-- Settles O59: by induction on the number of steps; each is a jump to itself and a timer check. -/
theorem jumpToItselfSpins : Obligations.JumpToItselfSpins := by
  intro s n
  induction n generalizing s with
  | zero => exact fun _ => rfl
  | succ n ih =>
    intro h
    rw [State.after, step_jp_self h]
    have := ih s.endStep h
    exact congrArg (fun t : State => { t with dt := s.dt, st := s.st, tref := s.tref, inputs := s.inputs }) this

end Sys2Proof.Machine
